-- ==== Sys2Proof/Word.lean ====
section
/-! DEFINITION. The words of the fOSC codec block (spec/00_scope.md R9, R12): bytes, the 16-bit registers and
fields, the 32-bit argument. -/

namespace Sys2Proof

/-- One byte of a packet, a response or a buffer (R9: byte width 8 bits). -/
abbrev Byte := BitVec 8

/-- A cursor, length or index (R9: 16 bits). -/
abbrev Half := BitVec 16

/-- A numeric argument or a blob size prefix (R9: 32 bits). -/
abbrev Word := BitVec 32

end Sys2Proof
end

