-- ==== Sys2Proof/Config.lean ====
section
/-! DEFINITION. The parameters of one instance of the block (spec/00_scope.md R8) and the values that
`State.reset` takes for them. No behaviour of the block needs a free value: the spec leaves no result of a command
open (spec/93_implementation_defined.md). -/

namespace Sys2Proof

/-- The capacities of the three buffers, each 0..65535, fixed for one instance of the block (R8, R21, D7). The
spec leaves their values OPEN: every claim quantifies over them. -/
structure Params where
  /-- `OS_CAP`, the bytes of the OSC serializer buffer. -/
  osCap : Fin 65536
  /-- `SD_CAP`, the bytes of the SLIP decoder frame buffer. -/
  sdCap : Fin 65536
  /-- `SE_CAP`, the bytes of the SLIP encoder transmit buffer. -/
  seCap : Fin 65536
deriving DecidableEq, Repr

/-- The instance that `State.reset` stands for: the largest legal capacities. DESIGN CHOICE (log 1), unsafe if a
claim rests on it; none does. -/
def Config.resetParams : Params := { osCap := 65535, sdCap := 65535, seCap := 65535 }

end Sys2Proof
end

