-- ==== Sys2Proof/Machine/State.lean ====
section
/-! DEFINITION. The state of the block (spec/10_state.md R20 to R31), its ports and reset input (30_encoding.md
R70, R74; 70_reset_and_hazards.md R250), the reasons a step can stop, and the state right after reset (R251). -/

namespace Sys2Proof.Machine

/-- A buffer: (offset, byte) pairs, offsets strictly rising. An offset not listed holds no value: nothing has
written it since reset (R252; DESIGN CHOICE, log 6, safe). -/
abbrev Memory := List Host.Cell

/-- `SD_ESC` (R24): bit value 0 is `Normal`, 1 is `Escaped`. -/
inductive EscState where
  | normal
  | escaped
deriving DecidableEq, Repr

/-- One act of the host at the block's interface (R230; DESIGN CHOICE of form, log 2). -/
inductive HostAct where
  /-- The host puts one byte on the command port, behind those it has put there before (R70). -/
  | send (b : Byte)
  /-- The host takes the next byte from the response port (R70, R74). -/
  | take
  /-- The host drives the reset input (R250): `true` asserts it, `false` releases it. -/
  | resetLine (asserted : Bool)
deriving DecidableEq, Repr

/-- The block with its ports, and the host's acts that are still to come. -/
structure State where
  /-- `OS_CAP`, `SD_CAP`, `SE_CAP` (R8, R21): parameters of the instance; no step changes them (log 1). -/
  params : Params
  /-- `OS_CUR`, the OSC serializer write cursor (R22). -/
  osCur : Half
  /-- `OSM`, the OSC serializer buffer (R50). -/
  osm : Memory
  /-- `SD_ESC`, the SLIP decoder escape state (R24). -/
  sdEsc : EscState
  /-- `SD_LEN`, the SLIP decoder accumulated length (R25). -/
  sdLen : Half
  /-- `SD_READY`, the SLIP decoder ready flag (R26). -/
  sdReady : Bool
  /-- `SDM`, the SLIP decoder frame buffer (R50). -/
  sdm : Memory
  /-- `SE_LEN`, the SLIP encoder append cursor (R27). -/
  seLen : Half
  /-- `SEM`, the SLIP encoder transmit buffer (R50). -/
  sem : Memory
  /-- The command port: the bytes the host has sent and the block has not taken yet, oldest first (R70; log 3). -/
  port : List Byte
  /-- `CMD_BUF`, the bytes of the current packet received so far (R28). -/
  cmdBuf : List Byte
  /-- The response port: the bytes of the current response that have not gone out yet (R70, R74). -/
  resp : List Byte
  /-- The reset input is asserted (R250). -/
  resetAsserted : Bool
  /-- The model's own: what the host does next, oldest act first (log 2). -/
  host : List HostAct
  /-- The model's own: the response bytes that have gone out, oldest first (log 7). -/
  out : List Byte
deriving DecidableEq, Repr

/-- Why a step stops. No command stops in a state that satisfies the machine's invariant. -/
inductive Fault where
  /-- Raised by `step` when the block can take no byte and the host has no act left: the block is idle (R236), a packet
  stays incomplete for ever (R72, U6: stuck), a response is never taken (R74, U7: stuck), or reset is never released
  (R250). Safe. -/
  | hostSilent
  /-- Raised by `OS.READ`, `SD.READ`, `SE.READ` at a byte that nothing has written since reset: R252 says no rule ever
  reads one, and no state of the invariant does (log 6). Safe. -/
  | unwrittenByte
  /-- Raised by `SD.PUSH` when `SD_LEN` is above `SD_CAP`, which R25 rules out: the append would be outside the buffer
  (R62; log 8). Safe. -/
  | offsetOutsideBuffer
deriving DecidableEq, Repr

/-- Why a step is refused. -/
inductive Refusal where
  /-- The command has no meaning yet in this model: raised by `exec` alone. Safe. -/
  | notModelled (mnemonic : String)
deriving DecidableEq, Repr

/-- The state right after reset of the instance with parameters `p` (R251): every register at its reset value,
`CMD_BUF` and the ports empty, the reset input released. Buffers hold no value (R252, log 6). -/
def State.resetFor (p : Params) : State :=
  { params := p
    osCur := 0, osm := []
    sdEsc := .normal, sdLen := 0, sdReady := false, sdm := []
    seLen := 0, sem := []
    port := [], cmdBuf := [], resp := [], resetAsserted := false
    host := [], out := [] }

/-- The machine right after reset (R250, R251), for the capacities of `Config.resetParams` (DESIGN CHOICE, log 1). -/
def State.reset : State := State.resetFor Config.resetParams

end Sys2Proof.Machine
end

