-- ==== Sys2Proof/Machine/Flags.lean ====
section
/-! DEFINITION. The status codes (spec/60_exceptions.md R220) and the flag bits of `SD.STATUS` (30_encoding.md R74,
41_slip_decoder.md R163). The block has no condition codes (R21). -/

namespace Sys2Proof.Machine

/-- The status of a response (R220). -/
inductive Status where
  | ok
  | bufferOverflow
  | protocolViolation
  | illegalCommand
  | indexOutOfRange
deriving DecidableEq, Repr

/-- The code of a status (R220). -/
def Status.code : Status → Byte
  | .ok => 0x00
  | .bufferOverflow => 0x01
  | .protocolViolation => 0x02
  | .illegalCommand => 0x03
  | .indexOutOfRange => 0x04

/-- `SD_ESC` as the bit it is (R24). -/
def EscState.bit : EscState → BitVec 1
  | .normal => 0
  | .escaped => 1

/-- The flags byte of `SD.STATUS`: bit 0 `SD_READY`, bit 1 `SD_ESC`, bits 7:2 zero (R74, R163). -/
def sdFlags (esc : EscState) (ready : Bool) : Byte := (0 : BitVec 6) ++ esc.bit ++ BitVec.ofBool ready

end Sys2Proof.Machine
end

