-- ==== Sys2Proof/Syntax.lean ====
section
/-! DEFINITION. The commands of the block, one constructor per row of spec/opcode_table.json (30_encoding.md R75),
with the operands of their packet formats (R71, R78). -/

namespace Sys2Proof

/-- A command with its operands. Illegal packets (R76, R77) are no commands: the decoder refuses them by name. -/
inductive Instr where
  /-- `OS.BEGIN a, t`: start a message with address `a` and type tags `t` (R102). -/
  | osBegin (a t : List Byte)
  /-- `OS.I32 w`: append a 32-bit integer argument (R104). -/
  | osI32 (w : Word)
  /-- `OS.F32 w`: append a 32-bit float pattern (R105). -/
  | osF32 (w : Word)
  /-- `OS.STR d`: append a string argument (R106). -/
  | osStr (d : List Byte)
  /-- `OS.BLOB d`: append a blob argument (R107). -/
  | osBlob (d : List Byte)
  /-- `OS.READ idx`: read one byte of the message (R111). -/
  | osRead (idx : Half)
  /-- `OS.STATUS`: read the cursor (R112). -/
  | osStatus
  /-- `SD.PUSH b`: feed one received byte to the decoder (R152). -/
  | sdPush (b : Byte)
  /-- `SD.CLEAR`: drop the frame (R160). -/
  | sdClear
  /-- `SD.READ idx`: read one byte of the frame (R162). -/
  | sdRead (idx : Half)
  /-- `SD.STATUS`: read the decoder registers (R163). -/
  | sdStatus
  /-- `SE.PUSH b`: escape and append one packet byte (R192). -/
  | sePush (b : Byte)
  /-- `SE.END`: terminate the frame (R193). -/
  | seEnd
  /-- `SE.CLEAR`: empty the transmit buffer (R194). -/
  | seClear
  /-- `SE.READ idx`: read one byte of the transmit stream (R195). -/
  | seRead (idx : Half)
  /-- `SE.STATUS`: read the append cursor (R196). -/
  | seStatus
deriving DecidableEq, Repr

end Sys2Proof
end

