-- ==== Sys2Proof/WellFormed.lean ====
section
/-! DEFINITION. Which commands have a packet: the length fields are 16 bits (30_encoding.md R71) and the operands
that are C strings hold no 0x00 byte (R77). -/

namespace Sys2Proof

/-- The 16-bit length field can hold the length (R71: 0..65535). -/
def fitsLength (d : List Byte) : Bool := d.length < 65536

/-- A C string operand holds no 0x00 byte (R77). -/
def noNul (d : List Byte) : Bool := d.all (· != 0x00)

/-- The operands that some legal packet encodes. Every byte value, 32-bit pattern and 16-bit index is legal (R77);
a blob may hold any bytes. -/
def Instr.wellFormed : Instr → Bool
  | .osBegin a t => fitsLength a && noNul a && (fitsLength t && noNul t)
  | .osI32 _ => true
  | .osF32 _ => true
  | .osStr d => fitsLength d && noNul d
  | .osBlob d => fitsLength d
  | .osRead _ => true
  | .osStatus => true
  | .sdPush _ => true
  | .sdClear => true
  | .sdRead _ => true
  | .sdStatus => true
  | .sePush _ => true
  | .seEnd => true
  | .seClear => true
  | .seRead _ => true
  | .seStatus => true

end Sys2Proof
end

