-- ==== Sys2Proof/Decode.lean ====
section
/-! DEFINITION. The command encoding (spec/30_encoding.md): the opcode map R75, the packet formats R71, packet
length decoding R73, the decoder (total on any bytes) and the encoder. -/

namespace Sys2Proof

/-! ## Byte order (R55, R78: every multi-byte field is big-endian and unsigned) -/

/-- The `n` bytes of `v`, most significant first (00_scope.md R13: byte `k` is `v[8(n-k)-1 : 8(n-k-1)]`). -/
def beBytes : Nat → Nat → List Byte
  | 0, _ => []
  | n + 1, v => BitVec.ofNat 8 (v / 256 ^ n) :: beBytes n v

/-- The unsigned value of big-endian bytes, read on from `acc`. -/
def beValueFrom : Nat → List Byte → Nat
  | acc, [] => acc
  | acc, b :: bs => beValueFrom (acc * 256 + b.toNat) bs

/-- The unsigned value of big-endian bytes (R78). -/
def beValue (bs : List Byte) : Nat := beValueFrom 0 bs

/-! ## The opcode map (R75) -/

/-- The six packet formats (R71). -/
inductive Format where
  /-- `[op]` -/
  | none
  /-- `[op] [b]` -/
  | byte
  /-- `[op] [idx_hi] [idx_lo]` -/
  | index
  /-- `[op] [w3] [w2] [w1] [w0]` -/
  | word
  /-- `[op] [len_hi] [len_lo] [d0] ...` -/
  | sequence
  /-- `[op] [alen_hi] [alen_lo] [a0] ... [tlen_hi] [tlen_lo] [t0] ...` -/
  | begin
deriving DecidableEq, Repr

/-- The assigned opcodes. -/
inductive Opcode where
  | osBegin | osI32 | osF32 | osStr | osBlob | osRead | osStatus
  | sdPush | sdClear | sdRead | sdStatus
  | sePush | seEnd | seClear | seRead | seStatus
deriving DecidableEq, Repr

/-- The opcode byte of each row of R75: bits 7:4 the unit, bits 3:0 the operation. -/
def Opcode.code : Opcode → Byte
  | .osBegin => 0x10
  | .osI32 => 0x11
  | .osF32 => 0x12
  | .osStr => 0x13
  | .osBlob => 0x14
  | .osRead => 0x1E
  | .osStatus => 0x1F
  | .sdPush => 0x20
  | .sdClear => 0x21
  | .sdRead => 0x2E
  | .sdStatus => 0x2F
  | .sePush => 0x30
  | .seEnd => 0x31
  | .seClear => 0x32
  | .seRead => 0x3E
  | .seStatus => 0x3F

/-- The packet format of each row of R75. -/
def Opcode.format : Opcode → Format
  | .osBegin => .begin
  | .osI32 => .word
  | .osF32 => .word
  | .osStr => .sequence
  | .osBlob => .sequence
  | .osRead => .index
  | .osStatus => .none
  | .sdPush => .byte
  | .sdClear => .none
  | .sdRead => .index
  | .sdStatus => .none
  | .sePush => .byte
  | .seEnd => .none
  | .seClear => .none
  | .seRead => .index
  | .seStatus => .none

/-- The rows of R75, in its order. -/
def Opcode.all : List Opcode :=
  [.osBegin, .osI32, .osF32, .osStr, .osBlob, .osRead, .osStatus] ++ [.sdPush, .sdClear, .sdRead, .sdStatus] ++
    [.sePush, .seEnd, .seClear, .seRead, .seStatus]

/-- The row that a whole opcode byte matches (R75: mask 0xFF), none for the 240 illegal values of R76. -/
def Opcode.ofByte (op : Byte) : Option Opcode := Opcode.all.find? (fun o => o.code == op)

/-- The packet format an opcode byte selects; an illegal opcode has format N (R73, R76). -/
def formatOf (op : Byte) : Format :=
  match Opcode.ofByte op with
  | some o => o.format
  | none => .none

/-! ## Packet length (R73) -/

/-- A 16-bit length field, once both of its bytes are in. -/
def lengthField : List Byte → Option Nat
  | hi :: lo :: _ => some (beValue [hi, lo])
  | _ => none

/-- The length in bytes of a packet, as soon as the bytes received so far decide it (R73). -/
def packetLength? : List Byte → Option Nat
  | [] => none
  | op :: rest =>
    match formatOf op with
    | .none => some 1
    | .byte => some 2
    | .index => some 3
    | .word => some 5
    | .sequence => (lengthField rest).map (3 + ·)
    | .begin =>
      match lengthField rest with
      | none => none
      | some alen => (lengthField (rest.drop (2 + alen))).map (5 + alen + ·)

/-! ## The decoder -/

/-- Why a complete packet is an illegal command. -/
inductive Illegal where
  /-- R76: no row of the opcode map has this opcode. -/
  | unassignedOpcode
  /-- R77: a C string operand holds a 0x00 byte. -/
  | nulInString
deriving DecidableEq, Repr

/-- What the decoder says of the bytes of a packet. -/
inductive Decoded where
  /-- A complete packet of a legal command. -/
  | instr (i : Instr)
  /-- A complete packet that is an illegal command. -/
  | illegal (why : Illegal)
  /-- More bytes are needed (R72). -/
  | incomplete
  /-- The bytes go on past the end of their first packet; `CMD_BUF` never holds such bytes. -/
  | overlong
deriving DecidableEq, Repr

/-- The bytes are a complete packet, legal or not (R73, R76, R77). -/
def Decoded.isComplete : Decoded → Bool
  | .instr _ => true
  | .illegal _ => true
  | .incomplete => false
  | .overlong => false

/-- The operands of a complete packet, from the bytes after its opcode (R71, R77, R78). -/
def parseOperands (o : Opcode) (rest : List Byte) : Decoded :=
  match o with
  | .osBegin =>
    let alen := beValue (rest.take 2)
    let a := (rest.drop 2).take alen
    let t := rest.drop (2 + alen + 2)
    if noNul a && noNul t then .instr (.osBegin a t) else .illegal .nulInString
  | .osI32 => .instr (.osI32 (BitVec.ofNat 32 (beValue rest)))
  | .osF32 => .instr (.osF32 (BitVec.ofNat 32 (beValue rest)))
  | .osStr => if noNul (rest.drop 2) then .instr (.osStr (rest.drop 2)) else .illegal .nulInString
  | .osBlob => .instr (.osBlob (rest.drop 2))
  | .osRead => .instr (.osRead (BitVec.ofNat 16 (beValue rest)))
  | .osStatus => .instr .osStatus
  | .sdPush => .instr (.sdPush (rest.headD 0))
  | .sdClear => .instr .sdClear
  | .sdRead => .instr (.sdRead (BitVec.ofNat 16 (beValue rest)))
  | .sdStatus => .instr .sdStatus
  | .sePush => .instr (.sePush (rest.headD 0))
  | .seEnd => .instr .seEnd
  | .seClear => .instr .seClear
  | .seRead => .instr (.seRead (BitVec.ofNat 16 (beValue rest)))
  | .seStatus => .instr .seStatus

/-- The command of a complete packet. -/
def parsePacket : List Byte → Decoded
  | [] => .incomplete
  | op :: rest =>
    match Opcode.ofByte op with
    | none => .illegal .unassignedOpcode
    | some o => parseOperands o rest

/-- The decoder: what the bytes of `CMD_BUF` are, total on any bytes (R73). -/
def decode (bs : List Byte) : Decoded :=
  match packetLength? bs with
  | none => .incomplete
  | some n =>
    if bs.length < n then .incomplete
    else if n < bs.length then .overlong
    else parsePacket bs

/-! ## The encoder -/

/-- The opcode of a command (R75). -/
def Instr.opcode : Instr → Opcode
  | .osBegin _ _ => .osBegin
  | .osI32 _ => .osI32
  | .osF32 _ => .osF32
  | .osStr _ => .osStr
  | .osBlob _ => .osBlob
  | .osRead _ => .osRead
  | .osStatus => .osStatus
  | .sdPush _ => .sdPush
  | .sdClear => .sdClear
  | .sdRead _ => .sdRead
  | .sdStatus => .sdStatus
  | .sePush _ => .sePush
  | .seEnd => .seEnd
  | .seClear => .seClear
  | .seRead _ => .seRead
  | .seStatus => .seStatus

/-- The bytes of format `S` after the opcode (R71): a 16-bit length and the sequence. -/
def encodeSequence (d : List Byte) : List Byte := beBytes 2 d.length ++ d

/-- The operand bytes of a command's packet (R71). -/
def encodeOperands : Instr → List Byte
  | .osBegin a t => encodeSequence a ++ encodeSequence t
  | .osI32 w => beBytes 4 w.toNat
  | .osF32 w => beBytes 4 w.toNat
  | .osStr d => encodeSequence d
  | .osBlob d => encodeSequence d
  | .osRead idx => beBytes 2 idx.toNat
  | .osStatus => []
  | .sdPush b => [b]
  | .sdClear => []
  | .sdRead idx => beBytes 2 idx.toNat
  | .sdStatus => []
  | .sePush b => [b]
  | .seEnd => []
  | .seClear => []
  | .seRead idx => beBytes 2 idx.toNat
  | .seStatus => []

/-- The packet of a command (R71, R75). -/
def encode (i : Instr) : List Byte := i.opcode.code :: encodeOperands i

/-! ## Words numbered as spec/opcode_table.json numbers them -/

/-- Byte `k` of an instruction whose bits are `w`: the table's bit 0 is the least significant bit of byte 0, and a
later byte's bits count on from it; the bits above `nbits` are 0. -/
def tableByte (nbits w k : Nat) : Byte := BitVec.ofNat 8 (w % 2 ^ nbits / 256 ^ k)

/-- The length of the packet that starts with the bytes of `w` and goes on with zeros (R73). -/
def tableLength (nbits w : Nat) : Nat :=
  let b := tableByte nbits w
  match formatOf (b 0) with
  | .none => 1
  | .byte => 2
  | .index => 3
  | .word => 5
  | .sequence => 3 + beValue [b 1, b 2]
  | .begin =>
    let alen := beValue [b 1, b 2]
    5 + alen + beValue [b (3 + alen), b (4 + alen)]

/-- The packet that starts with the bytes of `w` and goes on with zeros. -/
def tablePacket (nbits w : Nat) : List Byte := (List.range (tableLength nbits w)).map (tableByte nbits w)

/-- The command the decoder reads from an instruction whose bits are `w`, none where it refuses. -/
def decodeTableWord (nbits w : Nat) : Option Instr :=
  match decode (tablePacket nbits w) with
  | .instr i => some i
  | _ => none

end Sys2Proof
end

