-- ==== Sys2Proof/Machine/Operands.lean ====
section
/-! DEFINITION. What the commands compute from their operands: padding and OSC strings (spec/00_scope.md R15, R16),
the message header (40_osc_serializer.md R102), blobs (R107), SLIP escaping (42_slip_encoder.md R191). -/

namespace Sys2Proof.Machine

/-- `pad4(k)`: the zero bytes that bring offset `k` up to a multiple of 4 (R15). -/
def pad4 (k : Nat) : Nat := (4 - k % 4) % 4

/-- `Z(n)`: `n` bytes 0x00 (R15). -/
def zeros (n : Nat) : List Byte := List.replicate n 0x00

/-- `oscstr(s, k)`: string `s` written at cursor `k`, with its NUL and the padding that brings the absolute cursor to
a multiple of 4 (R16, D15). -/
def oscStr (s : List Byte) (k : Nat) : List Byte := s ++ [0x00] ++ zeros (pad4 (k + s.length + 1))

/-- The comma that starts every type-tag string (R102). Its code is general knowledge in the spec (G1): PRESUMED, log 11. -/
def comma : Byte := 0x2C

/-- The header `A ++ T` that `OS.BEGIN a, t` writes at offset 0 (R102). -/
def oscHeader (a t : List Byte) : List Byte :=
  oscStr a 0 ++ oscStr (comma :: t) (oscStr a 0).length

/-- The bytes `OS.BLOB d` appends: a 4-byte big-endian size and the bytes, unpadded (R107, R108, C1). -/
def oscBlob (d : List Byte) : List Byte := beBytes 4 d.length ++ d

/-- END (R17). -/
def slipEnd : Byte := 0xC0

/-- ESC (R17). -/
def slipEsc : Byte := 0xDB

/-- ESC_END (R17, C2). -/
def slipEscEnd : Byte := 0xDC

/-- ESC_ESC (R17). -/
def slipEscEsc : Byte := 0xDD

/-- `stuff1(c)`: the escape of one byte (R191). -/
def stuff1 (c : Byte) : List Byte :=
  if c = slipEnd then [slipEsc, slipEscEnd]
  else if c = slipEsc then [slipEsc, slipEscEsc]
  else [c]

/-- `stuff(S)`: the escape of a byte sequence (R191). -/
def stuff (bs : List Byte) : List Byte := bs.flatMap stuff1

end Sys2Proof.Machine
end

