-- ==== Sys2Proof/Machine/Ops.lean ====
section
/-! DEFINITION. The shared operations: reading and writing a buffer (spec/00_scope.md R13, 20_memory.md R50 to R63),
ending a command with a response (R14, R74, R220), the capacity-checked append of the OS and SE units (R101, R192),
the SLIP decoder's append (R151), and reading a byte back (R111, R162, R195). The block has no traps: a failure is
the status of the command's own response (R226), and `raise` is its one shared operation. -/

namespace Sys2Proof.Machine

/-- The outcome of a command. -/
abbrev Result := Host.Outcome State Fault Refusal

/-! ## Buffers -/

/-- Reading one byte: `M[a]`, none where nothing has written since reset. -/
def Memory.read : Memory → Nat → Option Byte
  | [], _ => none
  | (k, v) :: m, a => if a = k then some v else Memory.read m a

/-- Writing one byte: `M[a] <- v`, keeping the offsets strictly rising. -/
def Memory.write : Memory → Nat → Byte → Memory
  | [], a, v => [(a, v)]
  | (k, w) :: m, a, v =>
    if a < k then (a, v) :: (k, w) :: m
    else if a = k then (a, v) :: m
    else (k, w) :: Memory.write m a v

/-- `MemWriteSeq(M, a, s)` (R13). -/
def Memory.writeSeq : Memory → Nat → List Byte → Memory
  | m, _, [] => m
  | m, a, b :: bs => Memory.writeSeq (m.write a b) (a + 1) bs

/-- `MemWrite(M, a, n, v)`: the `n` bytes of `v`, most significant first (R13, R54). -/
def Memory.writeBE (m : Memory) (a n v : Nat) : Memory := m.writeSeq a (beBytes n v)

/-- The bytes `M[a .. a+n-1]`, none if one of them has no value. -/
def Memory.readSeq (m : Memory) : Nat → Nat → Option (List Byte)
  | _, 0 => some []
  | a, n + 1 =>
    match m.read a, Memory.readSeq m (a + 1) n with
    | some b, some bs => some (b :: bs)
    | _, _ => none

/-- `MemRead(M, a, n)`: bytes `a .. a+n-1` as a big-endian value (R13). No command uses it: every read is one byte
wide (R56). -/
def Memory.readBE (m : Memory) (a n : Nat) : Option Nat := (m.readSeq a n).map beValue

/-- The offsets are strictly rising from `lo` on. -/
def Memory.risingFrom : Nat → Memory → Bool
  | _, [] => true
  | lo, (k, _) :: m => decide (lo ≤ k) && Memory.risingFrom (k + 1) m

/-- The canonical form: offsets strictly rising. (An unlisted offset holds no value, so no entry equals it.) -/
def Memory.wf (m : Memory) : Bool := Memory.risingFrom 0 m

/-! ## Ending a command -/

/-- `respond(S, d)`: the command ends with status `S` and data `d` (R14, R74). -/
def respond (st : Status) (data : List Byte) (s : State) : Result := .next { s with resp := st.code :: data }

/-- `raise E`: the command ends with status `E` and its `n` data bytes zero; writes made before it persist (R14). -/
def raise (st : Status) (n : Nat) (s : State) : Result := respond st (zeros n) s

/-- An illegal command: it changes no state and responds `IllegalCommand` (R76, R77, R223). -/
def execIllegal (s : State) : Result := raise .illegalCommand 0 s

/-- A 16-bit register as two response bytes, high byte first (R55, R74). -/
def halfBytes (h : Half) : List Byte := [h.extractLsb' 8 8, h.extractLsb' 0 8]

/-! ## Appends -/

/-- Append `bs` to the message at `OS_CUR`, all or nothing (R100, R101). -/
def osAppend (bs : List Byte) (s : State) : Result :=
  if s.params.osCap.val < s.osCur.toNat + bs.length then raise .bufferOverflow 0 s
  else
    respond .ok []
      { s with
        osm := s.osm.writeSeq s.osCur.toNat bs
        osCur := BitVec.ofNat 16 (s.osCur.toNat + bs.length) }

/-- Append `bs` to the transmit stream at `SE_LEN`, all or nothing (R192, R193). -/
def seAppend (bs : List Byte) (s : State) : Result :=
  if s.params.seCap.val < s.seLen.toNat + bs.length then raise .bufferOverflow 0 s
  else
    respond .ok []
      { s with
        sem := s.sem.writeSeq s.seLen.toNat bs
        seLen := BitVec.ofNat 16 (s.seLen.toNat + bs.length) }

/-- A completed frame that is still held is dropped before a new byte is accepted: last-writer-wins (R151). -/
def sdDiscard (s : State) : State := if s.sdReady then { s with sdLen := 0, sdReady := false } else s

/-- The capacity check and the write of `sd_append(v)` (R151). `SD_LEN` above `SD_CAP` is no legal value (R25): the
write would be outside the buffer, and the model stops (log 8). -/
def sdStore (v : Byte) (s : State) : Result :=
  if s.sdLen.toNat = s.params.sdCap.val then raise .bufferOverflow 0 s
  else if s.params.sdCap.val < s.sdLen.toNat then .fault .offsetOutsideBuffer
  else
    respond .ok []
      { s with
        sdm := s.sdm.write s.sdLen.toNat v
        sdLen := BitVec.ofNat 16 (s.sdLen.toNat + 1) }

/-- `sd_append(v)` (R151): the discard comes before the capacity check. -/
def sdAppend (v : Byte) (s : State) : Result := sdStore v (sdDiscard s)

/-! ## Reading back -/

/-- Read byte `idx` of a buffer whose current length is `len` (R111, R162, R195). -/
def readBack (m : Memory) (len idx : Half) (s : State) : Result :=
  if len.toNat ≤ idx.toNat then raise .indexOutOfRange 1 s
  else
    match m.read idx.toNat with
    | some v => respond .ok [v] s
    | none => .fault .unwrittenByte

end Sys2Proof.Machine
end

