-- ==== Sys2Proof/Machine/Osc.lean ====
section
/-! DEFINITION. The OSC message serializer, unit OS (spec/40_osc_serializer.md). -/

namespace Sys2Proof.Machine

/-- `OS.BEGIN a, t` (R102): `OS_CUR <- 0`, then the whole header or `BufferOverflow`. Nothing but capacity is checked
(R103). -/
def execOsBegin (a t : List Byte) (s : State) : Result := osAppend (oscHeader a t) { s with osCur := 0 }

/-- `OS.I32 w` (R104). -/
def execOsI32 (w : Word) (s : State) : Result := osAppend (beBytes 4 w.toNat) s

/-- `OS.F32 w` (R105): the pattern is written unchanged. -/
def execOsF32 (w : Word) (s : State) : Result := osAppend (beBytes 4 w.toNat) s

/-- `OS.STR d` (R106): the padding brings the absolute cursor to a multiple of 4 and is part of the check. -/
def execOsStr (d : List Byte) (s : State) : Result := osAppend (oscStr d s.osCur.toNat) s

/-- `OS.BLOB d` (R107): no padding (R108). -/
def execOsBlob (d : List Byte) (s : State) : Result := osAppend (oscBlob d) s

/-- `OS.READ idx` (R111). -/
def execOsRead (idx : Half) (s : State) : Result := readBack s.osm s.osCur idx s

/-- `OS.STATUS` (R112). -/
def execOsStatus (s : State) : Result := respond .ok (halfBytes s.osCur) s

end Sys2Proof.Machine
end

