-- ==== Sys2Proof/Machine/SlipDecoder.lean ====
section
/-! DEFINITION. The SLIP decoder, unit SD (spec/41_slip_decoder.md). -/

namespace Sys2Proof.Machine

/-- A byte received in `Normal` (R153, R154, R155). -/
def sdPushNormal (c : Byte) (s : State) : Result :=
  if c = slipEnd then respond .ok [] (if s.sdLen ≠ 0 then { s with sdReady := true } else s)
  else if c = slipEsc then respond .ok [] { s with sdEsc := .escaped }
  else sdAppend c s

/-- A byte received in `Escaped`, with `SD_ESC` already 0 (R156 to R159). -/
def sdPushEscaped (c : Byte) (s : State) : Result :=
  if c = slipEscEnd then sdAppend slipEnd s
  else if c = slipEscEsc then sdAppend slipEsc s
  else raise .protocolViolation 0 s

/-- `SD.PUSH c` (R152). -/
def execSdPush (c : Byte) (s : State) : Result :=
  match s.sdEsc with
  | .normal => sdPushNormal c s
  | .escaped => sdPushEscaped c { s with sdEsc := .normal }

/-- `SD.CLEAR` (R160): `SD_ESC` and `SDM` stay as they are. -/
def execSdClear (s : State) : Result := respond .ok [] { s with sdLen := 0, sdReady := false }

/-- `SD.READ idx` (R162): allowed whether or not the frame is ready. -/
def execSdRead (idx : Half) (s : State) : Result := readBack s.sdm s.sdLen idx s

/-- `SD.STATUS` (R163). -/
def execSdStatus (s : State) : Result := respond .ok (sdFlags s.sdEsc s.sdReady :: halfBytes s.sdLen) s

end Sys2Proof.Machine
end

