-- ==== Sys2Proof/Machine/SlipEncoder.lean ====
section
/-! DEFINITION. The SLIP encoder, unit SE (spec/42_slip_encoder.md). -/

namespace Sys2Proof.Machine

/-- `SE.PUSH c` (R192): both bytes of an escape or neither. -/
def execSePush (c : Byte) (s : State) : Result := seAppend (stuff1 c) s

/-- `SE.END` (R193): one END, and the cursor is not reset. -/
def execSeEnd (s : State) : Result := seAppend [slipEnd] s

/-- `SE.CLEAR` (R194). -/
def execSeClear (s : State) : Result := respond .ok [] { s with seLen := 0 }

/-- `SE.READ idx` (R195): reading does not drain the buffer. -/
def execSeRead (idx : Half) (s : State) : Result := readBack s.sem s.seLen idx s

/-- `SE.STATUS` (R196). -/
def execSeStatus (s : State) : Result := respond .ok (halfBytes s.seLen) s

end Sys2Proof.Machine
end

