-- ==== Sys2Proof/Machine/Dispatch.lean ====
section
/-! DEFINITION. The meaning of each command (spec/30_encoding.md R75), one arm per constructor. -/

namespace Sys2Proof.Machine

def exec (i : Instr) (s : State) : Host.Outcome State Fault Refusal :=
  match i with
  -- unit OS
  | .osBegin a t => Sys2Proof.Machine.execOsBegin a t s
  | .osI32 w => Sys2Proof.Machine.execOsI32 w s
  | .osF32 w => Sys2Proof.Machine.execOsF32 w s
  | .osStr d => Sys2Proof.Machine.execOsStr d s
  | .osBlob d => Sys2Proof.Machine.execOsBlob d s
  | .osRead idx => Sys2Proof.Machine.execOsRead idx s
  | .osStatus => Sys2Proof.Machine.execOsStatus s
  -- unit SD
  | .sdPush b => Sys2Proof.Machine.execSdPush b s
  | .sdClear => Sys2Proof.Machine.execSdClear s
  | .sdRead idx => Sys2Proof.Machine.execSdRead idx s
  | .sdStatus => Sys2Proof.Machine.execSdStatus s
  -- unit SE
  | .sePush b => Sys2Proof.Machine.execSePush b s
  | .seEnd => Sys2Proof.Machine.execSeEnd s
  | .seClear => Sys2Proof.Machine.execSeClear s
  | .seRead idx => Sys2Proof.Machine.execSeRead idx s
  | .seStatus => Sys2Proof.Machine.execSeStatus s

end Sys2Proof.Machine
end

