-- ==== Sys2Proof/Machine/Port.lean ====
section
/-! DEFINITION. The command port with its assembler (spec/30_encoding.md R70 to R73), the response port (R74) and the
reset input (70_reset_and_hazards.md R250): when the block takes the next byte of the command port and what it does
with it, and what each act of the host does. -/

namespace Sys2Proof.Machine

/-! ## What the block does by itself -/

/-- The block may take `b` from the command port: reset is not asserted (R250), and if `b` completes a packet, the
response before it has gone out, since the next command executes only then (R74). A byte that completes no packet may
enter `CMD_BUF` while a response waits (R72; log 3). -/
def readyFor (s : State) (b : Byte) : Bool :=
  !s.resetAsserted && (s.resp.isEmpty || !(decode (s.cmdBuf ++ [b])).isComplete)

/-- The byte the block takes next from the command port, and the bytes behind it; none where the port is empty or its
first byte has to wait there. -/
def nextByte (s : State) : Option (Byte × List Byte) :=
  match s.port with
  | [] => none
  | b :: rest => if readyFor s b then some (b, rest) else none

/-- The block takes one byte. A packet's last byte executes its command and empties `CMD_BUF`; any other byte waits in
`CMD_BUF` and changes nothing else (R28, R72, R73). -/
def acceptByte (b : Byte) (s : State) : Result :=
  match decode (s.cmdBuf ++ [b]) with
  | .instr i => exec i { s with cmdBuf := [] }
  | .illegal _ => execIllegal { s with cmdBuf := [] }
  | .incomplete => .next { s with cmdBuf := s.cmdBuf ++ [b] }
  | .overlong => .next { s with cmdBuf := s.cmdBuf ++ [b] }

/-! ## What the host does -/

/-- The host puts a byte on the command port (R70). It stays there until the block takes it, while reset is asserted
too: the block then takes no command (R250, log 5). -/
def sendByte (b : Byte) (s : State) : Result := .next { s with port := s.port ++ [b] }

/-- The host takes the next byte of the response (R70, R74). Where no byte waits, or reset is asserted and the block
sends no response (R250), nothing goes out and nothing changes (log 4). -/
def takeByte (s : State) : Result :=
  if s.resetAsserted then .next s
  else
    match s.resp with
    | [] => .next s
    | b :: rest => .next { s with resp := rest, out := s.out ++ [b] }

/-- The host drives the reset input (R250). When reset is released the block is in the state of R251: registers at
their reset values, `CMD_BUF` empty, an undelivered response discarded; the next byte on the command port is then an
opcode. The bytes on that port, the host's acts and the bytes already gone out are not the block's (log 5). -/
def driveReset (asserted : Bool) (s : State) : Result :=
  if asserted then .next { s with resetAsserted := true }
  else if s.resetAsserted then .next { State.resetFor s.params with port := s.port, host := s.host, out := s.out }
  else .next s

/-- One act of the host. -/
def hostStep (act : HostAct) (s : State) : Result :=
  match act with
  | .send b => sendByte b s
  | .take => takeByte s
  | .resetLine asserted => driveReset asserted s

/-- The host's turn: its next act. With no act left nothing more happens (R236, U6, U7; log 2). -/
def hostTurn (s : State) : Result :=
  match s.host with
  | [] => .fault .hostSilent
  | act :: rest => hostStep act { s with host := rest }

/-! ## Placing a packet -/

/-- The state in which the packet `p` has been taken but for its last byte, which is next on the command port: no
response waits and reset is released. -/
def placePacket (p : List Byte) (s : State) : State :=
  { s with
    cmdBuf := p.dropLast
    resp := []
    resetAsserted := false
    port := p.getLast?.toList ++ s.port }

end Sys2Proof.Machine
end

