-- ==== Sys2Proof/Machine/Step.lean ====
section
/-! DEFINITION. One step of the machine (spec/60_exceptions.md R229, R236: nothing but a packet's arrival starts work).
A command runs in the step in which the block takes the last byte of its packet (R72). -/

namespace Sys2Proof.Machine

/-- One step: the block takes the next byte of the command port as soon as it can (R263: after a finite delay; log 12);
where it can take none, it is the host's turn. -/
def step (s : State) : Host.Outcome State Fault Refusal :=
  match nextByte s with
  | some (b, rest) => acceptByte b { s with port := rest }
  | none => hostTurn s

/-- `s` with the instruction whose bits are `w` (numbered as spec/opcode_table.json numbers them) taken from the command
port but for its last byte, which is next there: the very next step runs it (log 2). -/
def State.withFetchWord (s : State) (nbits w : Nat) : State := placePacket (tablePacket nbits w) s

end Sys2Proof.Machine
end

