-- ==== Sys2Proof/Machine/Assembler.lean ====
section
/-! DEFINITION. The assembler (spec/30_encoding.md R80) and its pseudo-instructions (R81): from the text of one line
to the commands whose packets it stands for. The block never sees a line; the text's blanks and the exact shape of
its tokens are this model's reading (log 13). -/

namespace Sys2Proof.Machine

/-! ## Numbers and tokens -/

/-- The digits of R80's `0x` numbers and blob bytes, each at the place of its value, in capitals as the spec writes
them and in small letters (log 13). -/
def digitRows : List (List Char) := ["0123456789ABCDEF".toList, "0123456789abcdef".toList]

/-- The value of a digit: its place in a row. -/
def hexDigit (c : Char) : Option Nat := digitRows.findSome? (List.idxOf? c)

/-- The value of digits of a base, read on from `acc`. -/
def digitsFrom (base : Nat) : Nat → List Char → Option Nat
  | acc, [] => some acc
  | acc, c :: cs =>
    match hexDigit c with
    | some d => if d < base then digitsFrom base (acc * base + d) cs else none
    | none => none

/-- A hexadecimal number, `0x` and at least one digit. -/
def parseHex : List Char → Option Nat
  | '0' :: 'x' :: c :: cs => digitsFrom 16 0 (c :: cs)
  | _ => none

/-- A decimal number, at least one digit. -/
def parseDec : List Char → Option Nat
  | [] => none
  | c :: cs => digitsFrom 10 0 (c :: cs)

/-- `<byte>` and `<idx>`: decimal or `0x` hexadecimal (R80), below `bound`. -/
def parseNat (bound : Nat) (cs : List Char) : Option Nat :=
  match (parseHex cs).or (parseDec cs) with
  | some n => if n < bound then some n else none
  | none => none

/-- `<int>`: a decimal integer from -2^31 to 2^32-1; a negative one is its 32-bit two's complement (R80). -/
def parseInt : List Char → Option Word
  | '-' :: cs =>
    match parseDec cs with
    | some n => if n ≤ 2 ^ 31 then some (BitVec.ofInt 32 (-n)) else none
    | none => none
  | cs =>
    match parseDec cs with
    | some n => if n < 2 ^ 32 then some (BitVec.ofNat 32 n) else none
    | none => none

/-- `<hex32>`: the raw 32-bit pattern of a float32 (R80). -/
def parsePattern (cs : List Char) : Option Word :=
  match parseHex cs with
  | some n => if n < 2 ^ 32 then some (BitVec.ofNat 32 n) else none
  | none => none

/-- `[<hex bytes>]`: two digits a byte, blanks between. -/
def hexBytes : List Char → Option (List Byte)
  | [] => some []
  | ' ' :: cs => hexBytes cs
  | a :: b :: cs =>
    match hexDigit a, hexDigit b, hexBytes cs with
    | some x, some y, some bs => some (BitVec.ofNat 8 (16 * x + y) :: bs)
    | _, _, _ => none
  | _ => none

/-- A token of a line. -/
inductive Token where
  | word (cs : List Char)
  | text (d : List Byte)
  | blob (d : List Byte)
  | comma
deriving DecidableEq, Repr

/-- Where the lexer stands; the characters read so far, newest first. -/
inductive LexMode where
  | blank
  | inWord (acc : List Char)
  | inText (acc : List Byte)
  | inBlob (acc : List Char)
deriving DecidableEq, Repr

/-- Puts a token before the tokens of the rest. -/
def consToken (t : Token) (ts : Option (List Token)) : Option (List Token) := ts.map (t :: ·)

/-- The tokens of a line. `"<text>"` is ASCII without NUL, its quotes not encoded (R80). -/
def lexLine : LexMode → List Char → Option (List Token)
  | .blank, [] => some []
  | .inWord acc, [] => some [.word acc.reverse]
  | .inText _, [] => none
  | .inBlob _, [] => none
  | .blank, c :: cs =>
    if c = ' ' then lexLine .blank cs
    else if c = ',' then consToken .comma (lexLine .blank cs)
    else if c = '"' then lexLine (.inText []) cs
    else if c = '[' then lexLine (.inBlob []) cs
    else lexLine (.inWord [c]) cs
  | .inWord acc, c :: cs =>
    if c = ' ' then consToken (.word acc.reverse) (lexLine .blank cs)
    else if c = ',' then consToken (.word acc.reverse) (consToken .comma (lexLine .blank cs))
    else lexLine (.inWord (c :: acc)) cs
  | .inText acc, c :: cs =>
    if c = '"' then consToken (.text acc.reverse) (lexLine .blank cs)
    else if 0 < c.toNat ∧ c.toNat < 128 then lexLine (.inText (BitVec.ofNat 8 c.toNat :: acc)) cs
    else none
  | .inBlob acc, c :: cs =>
    if c = ']' then
      match hexBytes acc.reverse with
      | some bs => consToken (.blob bs) (lexLine .blank cs)
      | none => none
    else lexLine (.inBlob (c :: acc)) cs

/-! ## Lines -/

/-- The mnemonics of R75. -/
def opcodeName : Opcode → List Char
  | .osBegin => ['O', 'S', '.', 'B', 'E', 'G', 'I', 'N']
  | .osI32 => ['O', 'S', '.', 'I', '3', '2']
  | .osF32 => ['O', 'S', '.', 'F', '3', '2']
  | .osStr => ['O', 'S', '.', 'S', 'T', 'R']
  | .osBlob => ['O', 'S', '.', 'B', 'L', 'O', 'B']
  | .osRead => ['O', 'S', '.', 'R', 'E', 'A', 'D']
  | .osStatus => ['O', 'S', '.', 'S', 'T', 'A', 'T', 'U', 'S']
  | .sdPush => ['S', 'D', '.', 'P', 'U', 'S', 'H']
  | .sdClear => ['S', 'D', '.', 'C', 'L', 'E', 'A', 'R']
  | .sdRead => ['S', 'D', '.', 'R', 'E', 'A', 'D']
  | .sdStatus => ['S', 'D', '.', 'S', 'T', 'A', 'T', 'U', 'S']
  | .sePush => ['S', 'E', '.', 'P', 'U', 'S', 'H']
  | .seEnd => ['S', 'E', '.', 'E', 'N', 'D']
  | .seClear => ['S', 'E', '.', 'C', 'L', 'E', 'A', 'R']
  | .seRead => ['S', 'E', '.', 'R', 'E', 'A', 'D']
  | .seStatus => ['S', 'E', '.', 'S', 'T', 'A', 'T', 'U', 'S']

/-- The pseudo-instructions of R81. -/
inductive Pseudo where
  | sdFeed
  | seSend
  | seFrame
  | osMsg
deriving DecidableEq, Repr

/-- Their names (R81). -/
def pseudoName : Pseudo → List Char
  | .sdFeed => ['S', 'D', '.', 'F', 'E', 'E', 'D']
  | .seSend => ['S', 'E', '.', 'S', 'E', 'N', 'D']
  | .seFrame => ['S', 'E', '.', 'F', 'R', 'A', 'M', 'E']
  | .osMsg => ['O', 'S', '.', 'M', 'S', 'G']

/-- The command of one line of R80, from its operand tokens. -/
def commandOf : Opcode → List Token → Option Instr
  | .osBegin, [.text a, .comma, .text t] => some (.osBegin a t)
  | .osI32, [.word cs] => (parseInt cs).map .osI32
  | .osF32, [.word cs] => (parsePattern cs).map .osF32
  | .osStr, [.text d] => some (.osStr d)
  | .osBlob, [.blob d] => some (.osBlob d)
  | .osRead, [.word cs] => (parseNat 65536 cs).map (fun n => .osRead (BitVec.ofNat 16 n))
  | .osStatus, [] => some .osStatus
  | .sdPush, [.word cs] => (parseNat 256 cs).map (fun n => .sdPush (BitVec.ofNat 8 n))
  | .sdClear, [] => some .sdClear
  | .sdRead, [.word cs] => (parseNat 65536 cs).map (fun n => .sdRead (BitVec.ofNat 16 n))
  | .sdStatus, [] => some .sdStatus
  | .sePush, [.word cs] => (parseNat 256 cs).map (fun n => .sePush (BitVec.ofNat 8 n))
  | .seEnd, [] => some .seEnd
  | .seClear, [] => some .seClear
  | .seRead, [.word cs] => (parseNat 65536 cs).map (fun n => .seRead (BitVec.ofNat 16 n))
  | .seStatus, [] => some .seStatus
  | _, _ => none

/-- `b0, b1, ..., bn`: bytes with commas between. -/
def byteList : List Token → Option (List Byte)
  | [.word cs] => (parseNat 256 cs).map (fun n => [BitVec.ofNat 8 n])
  | .word cs :: .comma :: ts =>
    match parseNat 256 cs, byteList ts with
    | some n, some bs => some (BitVec.ofNat 8 n :: bs)
    | _, _ => none
  | _ => none

/-- `, v1, ..., vk`: the values of an `OS.MSG`, each after its comma. -/
def msgValues : List Token → Option (List Token)
  | [] => some []
  | .comma :: v :: ts => (msgValues ts).map (v :: ·)
  | _ => none

/-- The append that a tag character calls for (R81): `i` 0x69, `f` 0x66, `s` 0x73, `b` 0x62 (R11), no other. -/
def tagOpcode (c : Byte) : Option Opcode :=
  if c = 0x69 then some .osI32
  else if c = 0x66 then some .osF32
  else if c = 0x73 then some .osStr
  else if c = 0x62 then some .osBlob
  else none

/-- One append per tag, in tag order; nothing where the counts differ, a tag is unknown, or a value does not suit its
tag (R81). -/
def msgAppends : List Byte → List Token → Option (List Instr)
  | [], [] => some []
  | c :: cs, v :: vs =>
    match tagOpcode c, msgAppends cs vs with
    | some o, some rest => (commandOf o [v]).map (· :: rest)
    | _, _ => none
  | _, _ => none

/-- The commands a pseudo-instruction expands to (R81). -/
def expand : Pseudo → List Token → Option (List Instr)
  | .sdFeed, ts => (byteList ts).map (·.map .sdPush)
  | .seSend, ts => (byteList ts).map (·.map .sePush)
  | .seFrame, ts => (byteList ts).map (fun bs => bs.map .sePush ++ [.seEnd])
  | .osMsg, .text a :: .comma :: .text t :: ts =>
    match msgValues ts with
    | some vs => (msgAppends t vs).map (.osBegin a t :: ·)
    | none => none
  | .osMsg, _ => none

/-- The commands of a line's tokens, all of which have packets. -/
def assembleTokens : List Token → Option (List Instr)
  | .word m :: ts =>
    let found :=
      match Opcode.all.find? (fun o => opcodeName o == m) with
      | some o => (commandOf o ts).map ([·])
      | none =>
        match ([.sdFeed, .seSend, .seFrame, .osMsg] : List Pseudo).find? (fun p => pseudoName p == m) with
        | some p => expand p ts
        | none => none
    match found with
    | some is => if is.all Instr.wellFormed then some is else none
    | none => none
  | _ => none

/-- The commands of one line, none where the assembler rejects it. -/
def assemble (line : List Char) : Option (List Instr) := (lexLine .blank line).bind assembleTokens

/-- The packets of one line (R80). -/
def assemblePackets (line : List Char) : Option (List (List Byte)) := (assemble line).map (·.map encode)

end Sys2Proof.Machine
end

