-- ==== Sys2Proof/Safety.lean ====
section
/-! DEFINITION. The terms that claims about the machine use: what a run of commands returns, what a command leaves
unchanged, the legal register values, and the invariant that every step keeps. -/

namespace Sys2Proof.Machine

/-! ## What buffers hold -/

/-- `M[a .. a+|bs|-1] = bs`. -/
def Memory.holds (m : Memory) (a : Nat) (bs : List Byte) : Prop :=
  ∀ k, k < bs.length → m.read (a + k) = bs[k]?

/-- Every byte outside `a .. a+n-1` reads in `m'` as it reads in `m`. -/
def Memory.sameOutside (m m' : Memory) (a n : Nat) : Prop :=
  ∀ x, x < a ∨ a + n ≤ x → m'.read x = m.read x

/-- A buffer of capacity `cap` whose current length is `len`: canonical, every byte that has a value inside the buffer
(R62), the length at most the capacity (R29), and every byte below the length written since reset (R23, R31). -/
structure Memory.Sound (m : Memory) (cap len : Nat) : Prop where
  canonical : m.wf = true
  inside : ∀ a, cap ≤ a → m.read a = none
  fits : len ≤ cap
  written : ∀ a, a < len → (m.read a).isSome = true

/-! ## Frames: what a command leaves unchanged -/

/-- The OS unit is the same in both states. -/
def State.sameOs (s t : State) : Prop := t.osCur = s.osCur ∧ t.osm = s.osm

/-- The SD unit is the same in both states. -/
def State.sameSd (s t : State) : Prop :=
  t.sdEsc = s.sdEsc ∧ t.sdLen = s.sdLen ∧ t.sdReady = s.sdReady ∧ t.sdm = s.sdm

/-- The SE unit is the same in both states. -/
def State.sameSe (s t : State) : Prop := t.seLen = s.seLen ∧ t.sem = s.sem

/-- Everything outside the units is the same, but for the response port. -/
def State.samePorts (s t : State) : Prop :=
  t.params = s.params ∧ t.port = s.port ∧ t.cmdBuf = s.cmdBuf ∧ t.resetAsserted = s.resetAsserted ∧ t.host = s.host ∧ t.out = s.out

/-- What an OS command may not touch (R30, R51). -/
def State.frameOs (s t : State) : Prop := s.sameSd t ∧ s.sameSe t ∧ s.samePorts t

/-- What an SD command may not touch (R30, R51). -/
def State.frameSd (s t : State) : Prop := s.sameOs t ∧ s.sameSe t ∧ s.samePorts t

/-- What an SE command may not touch (R30, R51). -/
def State.frameSe (s t : State) : Prop := s.sameOs t ∧ s.sameSd t ∧ s.samePorts t

/-- What an append of `bs` at the message's cursor `OS_CUR` does when it fits: the bytes, the cursor, the response `OK`,
and every other byte of `OSM` as it was. -/
def State.osAppended (bs : List Byte) (s t : State) : Prop :=
  t.resp = [0x00] ∧ t.osCur.toNat = s.osCur.toNat + bs.length ∧ t.osm.holds s.osCur.toNat bs ∧
    s.osm.sameOutside t.osm s.osCur.toNat bs.length

/-- What an OS command that does not fit does: `BufferOverflow`, nothing else. -/
def State.osOverflowed (s t : State) : Prop := t.resp = [0x01] ∧ s.sameOs t

/-- As `osAppended`, for the transmit stream at `SE_LEN`. -/
def State.seAppended (bs : List Byte) (s t : State) : Prop :=
  t.resp = [0x00] ∧ t.seLen.toNat = s.seLen.toNat + bs.length ∧ t.sem.holds s.seLen.toNat bs ∧
    s.sem.sameOutside t.sem s.seLen.toNat bs.length

/-- As `osOverflowed`, for the transmit stream. -/
def State.seOverflowed (s t : State) : Prop := t.resp = [0x01] ∧ s.sameSe t

/-- The byte `v` is appended at offset `len` of `SDM`, the response `OK`, no frame ready, every other byte of `SDM` as
it was (R151). -/
def State.sdAppended (v : Byte) (len : Nat) (s t : State) : Prop :=
  t.resp = [0x00] ∧ t.sdLen.toNat = len + 1 ∧ t.sdReady = false ∧ t.sdm.read len = some v ∧
    s.sdm.sameOutside t.sdm len 1

/-- An append to the frame that overflows: `BufferOverflow`; `SDM`, `SD_LEN` and `SD_READY` as they were (R151). -/
def State.sdOverflowed (s t : State) : Prop :=
  t.resp = [0x01] ∧ t.sdLen = s.sdLen ∧ t.sdReady = s.sdReady ∧ t.sdm = s.sdm

/-- `sd_append(v)` from `s` to `t`, by the cases of R151: a held frame is dropped and `v` becomes its successor's first
byte; otherwise the byte is appended, or the buffer is full. -/
def State.sdAppends (v : Byte) (s t : State) : Prop :=
  (s.sdReady = true → s.sdAppended v 0 t) ∧
  (s.sdReady = false → s.sdLen.toNat < s.params.sdCap.val → s.sdAppended v s.sdLen.toNat t) ∧
  (s.sdReady = false → s.sdLen.toNat = s.params.sdCap.val → s.sdOverflowed t)

/-- The legal register values of the SD unit (R25, R26): the length at most the capacity, and no empty frame ready. -/
def State.sdLegal (s : State) : Prop :=
  s.sdLen.toNat ≤ s.params.sdCap.val ∧ (s.sdReady = true → s.sdLen ≠ 0)

/-! ## Packets as R71 writes them -/

/-- A 16-bit length field, high byte first (R71). -/
def lengthBytes (n : Nat) : List Byte := [BitVec.ofNat 8 (n / 256), BitVec.ofNat 8 n]

/-- A 16-bit index, high byte first (R71). -/
def indexBytes (idx : Half) : List Byte := [idx.extractLsb' 8 8, idx.extractLsb' 0 8]

/-- A 32-bit operand, most significant byte first (R71). -/
def wordBytes (w : Word) : List Byte :=
  [w.extractLsb' 24 8, w.extractLsb' 16 8, w.extractLsb' 8 8, w.extractLsb' 0 8]

/-- A complete packet: of a command, or illegal (R73, R76, R77). -/
def isPacket (p : List Byte) : Prop := (∃ i, decode p = .instr i) ∨ ∃ why, decode p = .illegal why

/-- `b` arrives: it is the next byte on the command port, `rest` behind it, and reset is not asserted (R70, R250). -/
def State.arrives (s : State) (b : Byte) (rest : List Byte) : Prop :=
  s.port = b :: rest ∧ s.resetAsserted = false

/-- The block can take no byte now: reset is asserted (R250), no byte is on the command port, or the next one would
complete a packet while response bytes wait (R74). -/
def State.portWaits (s : State) : Prop :=
  s.resetAsserted = true ∨ s.port = [] ∨ ∃ b rest, s.port = b :: rest ∧ s.resp ≠ [] ∧ isPacket (s.cmdBuf ++ [b])

/-- The bytes that acts of the host put on the command port. -/
def sentBytes (acts : List HostAct) : List Byte :=
  acts.filterMap fun act => match act with | .send b => some b | .take => none | .resetLine _ => none

/-! ## Runs of commands -/

/-- The responses of a run of commands, in order, and the state after it: the host takes each response before it
sends the next command (R74, R230). None if a command stops. -/
def execAll : List Instr → State → Option (List (List Byte) × State)
  | [], s => some ([], s)
  | i :: is, s =>
    match exec i s with
    | .next t => (execAll is t).map (fun r => (t.resp :: r.1, r.2))
    | .fault _ => none
    | .refused _ => none

/-- The state after `n` steps, or the first stop. -/
def runSteps : Nat → State → Result
  | 0, s => .next s
  | n + 1, s =>
    match step s with
    | .next t => runSteps n t
    | .fault f => .fault f
    | .refused r => .refused r

/-- One argument of an OSC message, with its type tag (R110, R17). -/
inductive OscArg where
  | int (w : Word)
  | float (w : Word)
  | str (d : List Byte)
  | blob (d : List Byte)
deriving DecidableEq, Repr

/-- The tag of an argument: `i`, `f`, `s`, `b` (R11, R17). -/
def OscArg.tag : OscArg → Byte
  | .int _ => 0x69
  | .float _ => 0x66
  | .str _ => 0x73
  | .blob _ => 0x62

/-- The append the host owes for an argument (R109). -/
def OscArg.instr : OscArg → Instr
  | .int w => .osI32 w
  | .float w => .osF32 w
  | .str d => .osStr d
  | .blob d => .osBlob d

/-- The wire format of an argument at cursor `k` (R110). -/
def OscArg.bytes (k : Nat) : OscArg → List Byte
  | .int w => wordBytes w
  | .float w => wordBytes w
  | .str d => oscStr d k
  | .blob d => beBytes 4 d.length ++ d

/-- The wire format of a message's arguments from cursor `k` on (R110). -/
def oscArgs : Nat → List OscArg → List Byte
  | _, [] => []
  | k, x :: xs => x.bytes k ++ oscArgs (k + (x.bytes k).length) xs

/-- The wire format of a whole message (R110). -/
def oscMessage (a : List Byte) (xs : List OscArg) : List Byte :=
  oscHeader a (xs.map OscArg.tag) ++ oscArgs (oscHeader a (xs.map OscArg.tag)).length xs

/-- The three units of the block (R1). -/
inductive CodecUnit where
  | os
  | sd
  | se
deriving DecidableEq, Repr

/-- The unit of a command: bits 7:4 of its opcode (R75). -/
def codecUnitOf : Instr → CodecUnit
  | .osBegin _ _ => .os
  | .osI32 _ => .os
  | .osF32 _ => .os
  | .osStr _ => .os
  | .osBlob _ => .os
  | .osRead _ => .os
  | .osStatus => .os
  | .sdPush _ => .sd
  | .sdClear => .sd
  | .sdRead _ => .sd
  | .sdStatus => .sd
  | .sePush _ => .se
  | .seEnd => .se
  | .seClear => .se
  | .seRead _ => .se
  | .seStatus => .se

/-- The states agree on a unit's registers, buffer and capacity. -/
def State.agreeOn (u : CodecUnit) (s t : State) : Prop :=
  match u with
  | .os => s.sameOs t ∧ t.params.osCap = s.params.osCap
  | .sd => s.sameSd t ∧ t.params.sdCap = s.params.sdCap
  | .se => s.sameSe t ∧ t.params.seCap = s.params.seCap

/-- The next state differs only in the unit and the response port. -/
def State.frameOf (u : CodecUnit) (s t : State) : Prop :=
  match u with
  | .os => s.frameOs t
  | .sd => s.frameSd t
  | .se => s.frameSe t

/-! ## The tokens of a line (R81) -/

/-- The tokens of `OS.MSG "<a>", "<t>", v1, ..., vk` after the name. -/
def msgTokens (a t : List Byte) (vs : List Token) : List Token :=
  .text a :: .comma :: .text t :: vs.flatMap fun v => [.comma, v]

/-- The tokens of `b0, b1, ..., bn`. -/
def byteTokens (c : List Char) (cs : List (List Char)) : List Token :=
  .word c :: cs.flatMap fun x => [.comma, .word x]

/-! ## Responses -/

/-- One whole response, in one of the layouts of R74: a status; the two bytes of a read, whose data byte is 0x00 unless
the status is `OK`; a cursor or length; the flags and the length of `SD.STATUS`. -/
inductive IsResponse : List Byte → Prop where
  | status (st : Status) : IsResponse [st.code]
  | data (st : Status) (d : Byte) (h : st ≠ .ok → d = 0x00) : IsResponse [st.code, d]
  | length (st : Status) (n : Half) : IsResponse [st.code, n.extractLsb' 8 8, n.extractLsb' 0 8]
  | flags (st : Status) (f : Byte) (n : Half) (h : f.toNat < 4) :
    IsResponse [st.code, f, n.extractLsb' 8 8, n.extractLsb' 0 8]

/-! ## The invariant -/

/-- What holds of the block in every state a run reaches: each buffer is sound for its capacity and length, no empty
frame is ready (R26), `CMD_BUF` holds an incomplete packet (R28, R73), and what waits on the response port is the rest
of one response (R74). -/
structure State.Inv (s : State) : Prop where
  os : s.osm.Sound s.params.osCap.val s.osCur.toNat
  sd : s.sdm.Sound s.params.sdCap.val s.sdLen.toNat
  se : s.sem.Sound s.params.seCap.val s.seLen.toNat
  ready : s.sdReady = true → s.sdLen ≠ 0
  assembling : decode s.cmdBuf = .incomplete
  response : ∃ gone, IsResponse (gone ++ s.resp)

end Sys2Proof.Machine
end

