-- ==== Sys2Proof/Certificates/Slice0/Obligations.lean ====
section
/-! DEFINITION. What the model claims, each as a proposition. Nothing is proved here. A statement about every state
quantifies over the instance's capacities too: they are fields of `State.params` (log 1). -/

open Sys2Proof Sys2Proof.Machine

/-! ## Encoding (30_encoding.md) -/

/-- Decoding the packet of a well-formed command gives the command back, with every operand at every value its packet
admits. -/
def Obligations.DecodeOfEncodeIsCommand : Prop :=
  ∀ i : Instr, i.wellFormed = true → decode (encode i) = .instr i

/-- R79: every packet has one meaning, and no two packets are one command: what decodes to a command is that command's
packet, and the command is well-formed. -/
def Obligations.EveryPacketHasOneMeaning : Prop :=
  ∀ (bs : List Byte) (i : Instr), decode bs = .instr i → i.wellFormed = true ∧ encode i = bs

/-- R80, R82: example packets of the assembler's table, as written there, decode to the commands they stand for. -/
def Obligations.ExamplePacketsDecode : Prop :=
  decode [0x10, 0x00, 0x04, 0x2F, 0x66, 0x6F, 0x6F, 0x00, 0x01, 0x69] = .instr (.osBegin [0x2F, 0x66, 0x6F, 0x6F] [0x69]) ∧
  decode [0x11, 0x00, 0x00, 0x00, 0x2A] = .instr (.osI32 42) ∧
  decode [0x12, 0x3F, 0x80, 0x00, 0x00] = .instr (.osF32 0x3F800000) ∧
  decode [0x14, 0x00, 0x03, 0x01, 0x02, 0x03] = .instr (.osBlob [0x01, 0x02, 0x03]) ∧
  decode [0x1E, 0x00, 0x05] = .instr (.osRead 5) ∧
  decode [0x20, 0xC0] = .instr (.sdPush 0xC0) ∧
  decode [0x2F] = .instr .sdStatus ∧
  decode [0x30, 0xDB] = .instr (.sePush 0xDB) ∧
  decode [0x3E, 0x00, 0x01] = .instr (.seRead 1)

/-- R73: every byte stream splits, in exactly one way, into a sequence of complete packets followed by one incomplete
packet (the empty one included). -/
def Obligations.StreamSplitsIntoPackets : Prop :=
  ∀ bs : List Byte, ∃ (ps : List (List Byte)) (rest : List Byte),
    bs = ps.flatten ++ rest ∧ (∀ p ∈ ps, isPacket p) ∧ decode rest = .incomplete ∧
      ∀ (ps' : List (List Byte)) (rest' : List Byte),
        bs = ps'.flatten ++ rest' → (∀ p ∈ ps', isPacket p) → decode rest' = .incomplete → ps' = ps ∧ rest' = rest

/-- R76: the 240 opcode bytes of the list are illegal. Each is a complete 1-byte packet that changes no state and
responds `[03]`; the byte after it starts the next packet, since `CMD_BUF` is empty. -/
def Obligations.UnassignedOpcodesAreIllegal : Prop :=
  (∀ op : Byte,
    (op ≤ 0x0F ∨ (0x15 ≤ op ∧ op ≤ 0x1D) ∨ (0x22 ≤ op ∧ op ≤ 0x2D) ∨ (0x33 ≤ op ∧ op ≤ 0x3D) ∨ 0x40 ≤ op) ↔
      decode [op] = .illegal .unassignedOpcode) ∧
  ((List.range 256).filter fun n => decode [BitVec.ofNat 8 n] = .illegal .unassignedOpcode).length = 240 ∧
  ∀ (s : State) (op : Byte) (rest : List Byte),
    s.arrives op rest → s.cmdBuf = [] → s.resp = [] → decode [op] = .illegal .unassignedOpcode →
      step s = .next { s with port := rest, resp := [0x03] }

/-- R77: an `OS.BEGIN` whose address or tags hold 0x00, and an `OS.STR` whose string holds 0x00, are illegal commands;
no other operand value is illegal: an index beyond the length is refused when the command runs. An illegal packet is
consumed whole, changes no state and responds `[03]`. -/
def Obligations.StringOperandsWithNulAreIllegal : Prop :=
  (∀ a t : List Byte, a.length < 65536 → t.length < 65536 → (0x00 ∈ a ∨ 0x00 ∈ t) →
    decode (0x10 :: lengthBytes a.length ++ a ++ lengthBytes t.length ++ t) = .illegal .nulInString) ∧
  (∀ d : List Byte, d.length < 65536 → 0x00 ∈ d → decode (0x13 :: lengthBytes d.length ++ d) = .illegal .nulInString) ∧
  (∀ d : List Byte, d.length < 65536 → decode (0x14 :: lengthBytes d.length ++ d) = .instr (.osBlob d)) ∧
  (∀ b : Byte, decode [0x20, b] = .instr (.sdPush b) ∧ decode [0x30, b] = .instr (.sePush b)) ∧
  (∀ w : Word, decode (0x11 :: wordBytes w) = .instr (.osI32 w) ∧ decode (0x12 :: wordBytes w) = .instr (.osF32 w)) ∧
  (∀ idx : Half, decode (0x1E :: indexBytes idx) = .instr (.osRead idx) ∧
    decode (0x2E :: indexBytes idx) = .instr (.sdRead idx) ∧ decode (0x3E :: indexBytes idx) = .instr (.seRead idx)) ∧
  (∀ (s : State) (idx : Half),
    (s.osCur ≤ idx → exec (.osRead idx) s = .next { s with resp := [0x04, 0x00] }) ∧
    (s.sdLen ≤ idx → exec (.sdRead idx) s = .next { s with resp := [0x04, 0x00] }) ∧
    (s.seLen ≤ idx → exec (.seRead idx) s = .next { s with resp := [0x04, 0x00] })) ∧
  ∀ (s : State) (b : Byte) (rest : List Byte) (why : Illegal),
    s.arrives b rest → s.resp = [] → decode (s.cmdBuf ++ [b]) = .illegal why →
      step s = .next { s with port := rest, cmdBuf := [], resp := [0x03] }

/-! ## The ports (R70 to R74) -/

/-- A step runs the decoded command: when the arriving byte completes a packet of the command `i` and no response
waits, `step` is `exec i`, with the byte taken from the command port and `CMD_BUF` empty (R28, R72). -/
def Obligations.StepRunsDecodedCommand : Prop :=
  ∀ (s : State) (b : Byte) (rest : List Byte) (i : Instr),
    s.arrives b rest → s.resp = [] → decode (s.cmdBuf ++ [b]) = .instr i →
      step s = exec i { s with port := rest, cmdBuf := [] }

/-- R72: a byte that does not complete its packet is taken into `CMD_BUF` and waits there; nothing else of the block
changes, and with no further byte the machine is stuck (U6). Two parts are the model's choice: that the byte is taken
into `CMD_BUF` also while a response waits (log 3), and that being stuck is the fault `hostSilent` (log 2). -/
def Obligations.IncompletePacketWaits : Prop :=
  (∀ (s : State) (b : Byte) (rest : List Byte),
    s.arrives b rest → decode (s.cmdBuf ++ [b]) = .incomplete →
      step s = .next { s with port := rest, cmdBuf := s.cmdBuf ++ [b] }) ∧
  ∀ s : State, s.port = [] → s.host = [] → step s = .fault .hostSilent

/-- R72: when the bytes of a command's packet arrive one by one, each but the last only waits in `CMD_BUF`, and the
command executes exactly at the last. -/
def Obligations.CommandExecutesAtLastByte : Prop :=
  ∀ (i : Instr) (s : State) (rest : List Byte),
    i.wellFormed = true → s.cmdBuf = [] → s.resp = [] → s.resetAsserted = false → s.port = encode i ++ rest →
      (∀ n, n < (encode i).length →
        runSteps n s = .next { s with port := (encode i).drop n ++ rest, cmdBuf := (encode i).take n }) ∧
      runSteps (encode i).length s = exec i { s with port := rest }

/-- An instruction word, numbered as the opcode table numbers it, that `withFetchWord` has placed on the command port is
run by the very next step (R72). It does so from every state because `withFetchWord` also clears a waiting response
and releases reset, which is the model's choice of what placing a word is (log 2). -/
def Obligations.PlacedWordRunsNext : Prop :=
  ∀ (s : State) (nbits w : Nat) (i : Instr), decodeTableWord nbits w = some i →
    step (s.withFetchWord nbits w) = exec i { s with cmdBuf := [], resp := [], resetAsserted := false }

/-- R74: a command's last byte does not execute it while response bytes wait: no step touches a unit or adds a response,
and with no further act of the host the machine is stuck (U7). Two parts are the model's: that the byte stays on the
command port and `CMD_BUF` keeps the bytes before it (log 3), and that being stuck is the fault `hostSilent` (log 2). -/
def Obligations.CommandWaitsForPendingResponse : Prop :=
  ∀ (s : State) (b : Byte) (rest : List Byte),
    s.arrives b rest → s.resp ≠ [] → isPacket (s.cmdBuf ++ [b]) →
      (s.host = [] → step s = .fault .hostSilent) ∧
      (s.host ≠ [] → ∃ t, step s = .next t ∧ s.sameOs t ∧ s.sameSd t ∧ s.sameSe t ∧ t.cmdBuf = s.cmdBuf ∧
        s.port <+: t.port ∧ t.resp <:+ s.resp)

/-- R263, R74: a complete packet, legal or not, whose last byte waits for a response to go out executes once the host has
taken that response, whatever the host has sent meanwhile: a command runs, an illegal packet responds `[03]` and
changes no unit (R76, R77). Two parts are the model's: that the packet's last byte and the bytes sent meanwhile wait on
the command port (log 3), and that the packet executes in the very next step after the host's act that takes the last
response byte, where R263 says a finite delay (log 12). -/
def Obligations.PendingCommandExecutesOnceResponseIsTaken : Prop :=
  ∀ (s : State) (b : Byte) (rest : List Byte) (acts later : List HostAct),
    s.arrives b rest → s.host = acts ++ later →
    (∀ level, HostAct.resetLine level ∉ acts) → acts.count .take = s.resp.length →
    (acts = [] ∨ acts.getLast? = some .take) →
      (∀ i, decode (s.cmdBuf ++ [b]) = .instr i →
        runSteps (acts.length + 1) s =
          exec i { s with
            port := rest ++ sentBytes acts, cmdBuf := [], resp := [], host := later, out := s.out ++ s.resp }) ∧
      (∀ why, decode (s.cmdBuf ++ [b]) = .illegal why →
        runSteps (acts.length + 1) s =
          .next { s with
            port := rest ++ sentBytes acts, cmdBuf := [], resp := [0x03], host := later, out := s.out ++ s.resp })

/-- R70: a byte the host sends comes after the bytes it has sent before, and nothing else changes. Two parts are the
model's: that the command port keeps any number of bytes which the block has not taken yet (log 3), and that a byte
stays there while reset is asserted too (log 5). -/
def Obligations.SentByteQueuesOnPort : Prop :=
  ∀ (s : State) (b : Byte) (later : List HostAct),
    s.portWaits → s.host = .send b :: later → step s = .next { s with host := later, port := s.port ++ [b] }

/-- R70, R74: the bytes of a response go out on the response port one by one, first byte first; nothing else of the
block changes. -/
def Obligations.ResponseBytesGoOutInOrder : Prop :=
  ∀ (s : State) (b : Byte) (bs : List Byte) (later : List HostAct),
    s.portWaits → s.host = .take :: later → s.resetAsserted = false → s.resp = b :: bs →
      step s = .next { s with host := later, resp := bs, out := s.out ++ [b] }

/-- R74: the layout of the response of every command: one status byte, and data bytes whose number depends only on the
opcode; a read's data byte is 0x00 unless the status is `OK`; the STATUS commands return the registers before the
command. -/
def Obligations.ResponseLayoutByOpcode : Prop :=
  ∀ (i : Instr) (s t : State), exec i s = .next t →
    match i with
    | .osRead _ => ∃ st d, t.resp = [st, d] ∧ (st ≠ 0x00 → d = 0x00)
    | .sdRead _ => ∃ st d, t.resp = [st, d] ∧ (st ≠ 0x00 → d = 0x00)
    | .seRead _ => ∃ st d, t.resp = [st, d] ∧ (st ≠ 0x00 → d = 0x00)
    | .osStatus => ∃ st, t.resp = [st, s.osCur.extractLsb' 8 8, s.osCur.extractLsb' 0 8]
    | .sdStatus => ∃ st flags, t.resp = [st, flags, s.sdLen.extractLsb' 8 8, s.sdLen.extractLsb' 0 8] ∧
        flags.getLsbD 0 = s.sdReady ∧ flags.getLsbD 1 = decide (s.sdEsc = .escaped) ∧ flags.extractLsb' 2 6 = 0
    | .seStatus => ∃ st, t.resp = [st, s.seLen.extractLsb' 8 8, s.seLen.extractLsb' 0 8]
    | _ => ∃ st, t.resp = [st]

/-- R220: which commands respond which status. Codes above 0x04 are never produced; an executed command never responds
`IllegalCommand`, which only a refused packet does. -/
def Obligations.StatusCodesByCommand : Prop :=
  ∀ (i : Instr) (s t : State), exec i s = .next t →
    ∃ (st : Byte) (data : List Byte), t.resp = st :: data ∧
      (st = 0x00 ∨ st = 0x01 ∨ st = 0x02 ∨ st = 0x04) ∧
      (st = 0x01 → (∃ a u, i = .osBegin a u) ∨ (∃ w, i = .osI32 w) ∨ (∃ w, i = .osF32 w) ∨ (∃ d, i = .osStr d) ∨
        (∃ d, i = .osBlob d) ∨ (∃ b, i = .sdPush b) ∨ (∃ b, i = .sePush b) ∨ i = .seEnd) ∧
      (st = 0x02 → ∃ b, i = .sdPush b ∧ s.sdEsc = .escaped ∧ b ≠ 0xDC ∧ b ≠ 0xDD) ∧
      (st = 0x04 → ∃ idx, (i = .osRead idx ∧ s.osCur ≤ idx) ∨ (i = .sdRead idx ∧ s.sdLen ≤ idx) ∨
        (i = .seRead idx ∧ s.seLen ≤ idx))

/-! ## Unit OS (40_osc_serializer.md) -/

/-- R15, R16: an OSC string written at cursor `k` is the string, a NUL, and fewer than four zero bytes that bring the
absolute cursor to the next multiple of 4. -/
def Obligations.OscStringAlignsCursor : Prop :=
  ∀ (s : List Byte) (k : Nat),
    (k + (oscStr s k).length) % 4 = 0 ∧ s.length + 1 ≤ (oscStr s k).length ∧ (oscStr s k).length ≤ s.length + 4 ∧
    (oscStr s k).take s.length = s ∧ ∀ j, s.length ≤ j → j < (oscStr s k).length → (oscStr s k)[j]? = some 0x00

/-- R102: `OS.BEGIN a, t`. Its packet; the header `A ++ T` written at offset 0 and the cursor after it, or
`BufferOverflow` with the cursor 0 and `OSM` unchanged; the lengths of `A` and `T`; and everything else unchanged. -/
def Obligations.OsBeginWritesHeader : Prop :=
  ∀ (a t : List Byte) (s : State) (A T : List Byte), A = oscStr a 0 → T = oscStr (0x2C :: t) A.length →
    (a.length < 65536 → t.length < 65536 →
      decode (0x10 :: lengthBytes a.length ++ a ++ lengthBytes t.length ++ t) =
        if 0x00 ∈ a ∨ 0x00 ∈ t then .illegal .nulInString else .instr (.osBegin a t)) ∧
    A.length = 4 * (a.length / 4) + 4 ∧ T.length = 4 * ((t.length + 1) / 4) + 4 ∧
    ∃ u, exec (.osBegin a t) s = .next u ∧ s.frameOs u ∧
      (A.length + T.length ≤ s.params.osCap.val →
        u.resp = [0x00] ∧ u.osCur.toNat = A.length + T.length ∧ u.osm.holds 0 (A ++ T) ∧
          s.osm.sameOutside u.osm 0 (A.length + T.length)) ∧
      (s.params.osCap.val < A.length + T.length → u.resp = [0x01] ∧ u.osCur = 0 ∧ u.osm = s.osm)

/-- R104: `OS.I32 w` appends the four bytes of `w`, most significant first, at any cursor, or overflows and changes
nothing. -/
def Obligations.OsI32AppendsBigEndian : Prop :=
  ∀ (w : Word) (s : State),
    decode (0x11 :: wordBytes w) = .instr (.osI32 w) ∧
    ∃ u, exec (.osI32 w) s = .next u ∧ s.frameOs u ∧
      (s.osCur.toNat + 4 ≤ s.params.osCap.val → s.osAppended (wordBytes w) u) ∧
      (s.params.osCap.val < s.osCur.toNat + 4 → s.osOverflowed u)

/-- R105: `OS.F32 w` appends the pattern `w` unchanged, exactly as `OS.I32` does. -/
def Obligations.OsF32AppendsPattern : Prop :=
  ∀ (w : Word) (s : State),
    decode (0x12 :: wordBytes w) = .instr (.osF32 w) ∧ exec (.osF32 w) s = exec (.osI32 w) s ∧
    ∃ u, exec (.osF32 w) s = .next u ∧ s.frameOs u ∧
      (s.osCur.toNat + 4 ≤ s.params.osCap.val → s.osAppended (wordBytes w) u) ∧
      (s.params.osCap.val < s.osCur.toNat + 4 → s.osOverflowed u)

/-- R106: `OS.STR d` appends the string with its NUL and the padding of the absolute cursor, all of it checked against
the capacity; a string with a 0x00 byte is an illegal packet. -/
def Obligations.OsStrAppendsPadded : Prop :=
  ∀ (d : List Byte) (s : State) (S : List Byte), S = oscStr d s.osCur.toNat →
    (d.length < 65536 → decode (0x13 :: lengthBytes d.length ++ d) =
      if 0x00 ∈ d then .illegal .nulInString else .instr (.osStr d)) ∧
    ∃ u, exec (.osStr d) s = .next u ∧ s.frameOs u ∧
      (s.osCur.toNat + S.length ≤ s.params.osCap.val → s.osAppended S u ∧ u.osCur.toNat % 4 = 0) ∧
      (s.params.osCap.val < s.osCur.toNat + S.length → s.osOverflowed u)

/-- R107: `OS.BLOB d` appends the 4-byte big-endian size and the bytes, with no padding; it is never illegal. -/
def Obligations.OsBlobAppendsUnpadded : Prop :=
  ∀ (d : List Byte) (s : State), d.length < 65536 →
    decode (0x14 :: lengthBytes d.length ++ d) = .instr (.osBlob d) ∧
    ∃ u, exec (.osBlob d) s = .next u ∧ s.frameOs u ∧
      (s.osCur.toNat + 4 + d.length ≤ s.params.osCap.val →
        s.osAppended ([0x00, 0x00] ++ lengthBytes d.length ++ d) u ∧ u.osCur.toNat = s.osCur.toNat + 4 + d.length) ∧
      (s.params.osCap.val < s.osCur.toNat + 4 + d.length → s.osOverflowed u)

/-- R111: `OS.READ idx` responds the byte at `idx` below the cursor, else `IndexOutOfRange` with a zero data byte; it
changes nothing. (Below the cursor every byte has been written, R31; `LegalStatesStopNoCommand` says it of the model.) -/
def Obligations.OsReadReturnsByte : Prop :=
  ∀ (idx : Half) (s : State),
    decode (0x1E :: indexBytes idx) = .instr (.osRead idx) ∧
    (s.osCur.toNat ≤ idx.toNat → exec (.osRead idx) s = .next { s with resp := [0x04, 0x00] }) ∧
    (∀ v, idx.toNat < s.osCur.toNat → s.osm.read idx.toNat = some v →
      exec (.osRead idx) s = .next { s with resp := [0x00, v] })

/-- R112: `OS.STATUS` responds the cursor, high byte first; it changes nothing. -/
def Obligations.OsStatusReturnsCursor : Prop :=
  decode [0x1F] = .instr .osStatus ∧
  ∀ s : State,
    exec .osStatus s = .next { s with resp := [0x00, s.osCur.extractLsb' 8 8, s.osCur.extractLsb' 0 8] }

/-- R23, the alignment of the cursor command by command: after `OS.BEGIN`, success or failure, a multiple of 4; after a
successful `OS.STR` a multiple of 4; `OS.I32` and `OS.F32` keep it mod 4; `OS.BLOB` keeps it mod 4 exactly when the
size is a multiple of 4; a failed command leaves the cursor, but for `OS.BEGIN`, which sets it to 0. -/
def Obligations.CursorAlignmentByCommand : Prop :=
  ∀ (s u : State),
    (∀ a t, exec (.osBegin a t) s = .next u → u.osCur.toNat % 4 = 0 ∧ (u.resp ≠ [0x00] → u.osCur = 0)) ∧
    (∀ d, exec (.osStr d) s = .next u →
      (u.resp = [0x00] → u.osCur.toNat % 4 = 0) ∧ (u.resp ≠ [0x00] → u.osCur = s.osCur)) ∧
    (∀ w, exec (.osI32 w) s = .next u →
      u.osCur.toNat % 4 = s.osCur.toNat % 4 ∧ (u.resp ≠ [0x00] → u.osCur = s.osCur)) ∧
    (∀ w, exec (.osF32 w) s = .next u →
      u.osCur.toNat % 4 = s.osCur.toNat % 4 ∧ (u.resp ≠ [0x00] → u.osCur = s.osCur)) ∧
    (∀ d, exec (.osBlob d) s = .next u →
      (u.resp = [0x00] → (u.osCur.toNat % 4 = s.osCur.toNat % 4 ↔ d.length % 4 = 0)) ∧
      (u.resp ≠ [0x00] → u.osCur = s.osCur))

/-- R110: the wire format of a message. When `OS.BEGIN` and the appends in type-tag order are run one after another and
the message fits, every response is `OK` and the buffer holds exactly the header and the arguments' bytes. -/
def Obligations.MessageWireFormat : Prop :=
  ∀ (a : List Byte) (xs : List OscArg) (s : State),
    (oscMessage a xs).length ≤ s.params.osCap.val →
    ∃ u, execAll (.osBegin a (xs.map OscArg.tag) :: xs.map OscArg.instr) s =
        some (List.replicate (xs.length + 1) [0x00], u) ∧
      u.osCur.toNat = (oscMessage a xs).length ∧ u.osm.holds 0 (oscMessage a xs)

/-- R56: a 32-bit value that `OS.I32` wrote at offset `k` reads back byte by byte, bits 31:24 first. -/
def Obligations.IntegerReadsBackBigEndian : Prop :=
  ∀ (w : Word) (s : State), s.osCur.toNat + 4 ≤ s.params.osCap.val →
    ∃ u, execAll [.osI32 w, .osRead s.osCur, .osRead (s.osCur + 1), .osRead (s.osCur + 2), .osRead (s.osCur + 3)] s =
      some ([[0x00], [0x00, w.extractLsb' 24 8], [0x00, w.extractLsb' 16 8], [0x00, w.extractLsb' 8 8],
        [0x00, w.extractLsb' 0 8]], u)

/-! ## Unit SD (41_slip_decoder.md) -/

/-- R153: an END in `Normal` completes a frame that is not empty and is otherwise ignored; a ready frame stays ready. -/
def Obligations.SdPushEndCompletesFrame : Prop :=
  ∀ s : State, s.sdEsc = .normal →
    (s.sdLen = 0 → exec (.sdPush 0xC0) s = .next { s with resp := [0x00] }) ∧
    (s.sdLen ≠ 0 → exec (.sdPush 0xC0) s = .next { s with sdReady := true, resp := [0x00] })

/-- R154: an ESC in `Normal` only enters `Escaped`: nothing is appended and a ready frame is kept. -/
def Obligations.SdPushEscEntersEscaped : Prop :=
  ∀ s : State, s.sdEsc = .normal → exec (.sdPush 0xDB) s = .next { s with sdEsc := .escaped, resp := [0x00] }

/-- R151, R155: any other byte in `Normal` is appended by `sd_append`: a held frame is discarded first (and then the
append never overflows), a full buffer responds `BufferOverflow` and keeps the frame. -/
def Obligations.SdPushDataAppends : Prop :=
  ∀ (c : Byte) (s : State), s.sdLegal → s.sdEsc = .normal → c ≠ 0xC0 → c ≠ 0xDB →
    ∃ t, exec (.sdPush c) s = .next t ∧ s.frameSd t ∧ t.sdEsc = .normal ∧ s.sdAppends c t

/-- R156, R157: in `Escaped`, ESC_END appends the literal END and ESC_ESC the literal ESC, each by `sd_append`; the
decoder is back in `Normal`, an overflow included. -/
def Obligations.SdPushEscapedLiteralAppends : Prop :=
  ∀ s : State, s.sdLegal → s.sdEsc = .escaped →
    (∃ t, exec (.sdPush 0xDC) s = .next t ∧ s.frameSd t ∧ t.sdEsc = .normal ∧ s.sdAppends 0xC0 t) ∧
    (∃ t, exec (.sdPush 0xDD) s = .next t ∧ s.frameSd t ∧ t.sdEsc = .normal ∧ s.sdAppends 0xDB t)

/-- R158: any other byte in `Escaped`, END and ESC included, is a `ProtocolViolation`: the decoder is back in `Normal`
and keeps the frame as it is. -/
def Obligations.SdPushEscapedViolation : Prop :=
  ∀ (c : Byte) (s : State), s.sdEsc = .escaped → c ≠ 0xDC → c ≠ 0xDD →
    exec (.sdPush c) s = .next { s with sdEsc := .normal, resp := [0x02] }

/-- R159: every `SD.PUSH` that finds `Escaped` leaves `Normal`, whatever its outcome. -/
def Obligations.SdPushLeavesEscaped : Prop :=
  ∀ (c : Byte) (s : State), s.sdLegal → s.sdEsc = .escaped →
    ∃ t, exec (.sdPush c) s = .next t ∧ t.sdEsc = .normal ∧ (t.resp = [0x00] ∨ t.resp = [0x01] ∨ t.resp = [0x02])

/-- R160: `SD.CLEAR` drops the frame; the escape state and the buffer stay. -/
def Obligations.SdClearDropsFrame : Prop :=
  decode [0x21] = .instr .sdClear ∧
  ∀ s : State, exec .sdClear s = .next { s with sdLen := 0, sdReady := false, resp := [0x00] }

/-- R162: `SD.READ idx` responds the byte at `idx` below the length, ready or not, else `IndexOutOfRange` with a zero
data byte; it does not consume the frame. -/
def Obligations.SdReadReturnsByte : Prop :=
  ∀ (idx : Half) (s : State),
    decode (0x2E :: indexBytes idx) = .instr (.sdRead idx) ∧
    (s.sdLen.toNat ≤ idx.toNat → exec (.sdRead idx) s = .next { s with resp := [0x04, 0x00] }) ∧
    (∀ v, idx.toNat < s.sdLen.toNat → s.sdm.read idx.toNat = some v →
      exec (.sdRead idx) s = .next { s with resp := [0x00, v] })

/-- R163: `SD.STATUS` responds the flags (bit 0 `SD_READY`, bit 1 `SD_ESC`, the others 0) and the length, high byte
first; it changes nothing. -/
def Obligations.SdStatusReturnsRegisters : Prop :=
  decode [0x2F] = .instr .sdStatus ∧
  ∀ s : State, ∃ flags : Byte,
    exec .sdStatus s = .next { s with resp := [0x00, flags, s.sdLen.extractLsb' 8 8, s.sdLen.extractLsb' 0 8] } ∧
    flags.toNat = (if s.sdReady then 1 else 0) + (if s.sdEsc = .escaped then 2 else 0)

/-- R164: frame reception. From `Normal` with an empty or a ready frame, feeding `stuff(S) ++ [C0]` for
`1 <= |S| <= SD_CAP` ends with exactly the frame `S` ready, every response `OK`, and `SD_READY` changes from 0 to 1
exactly at the final END. For the empty `S` the END is ignored: nothing but the response changes. -/
def Obligations.FrameReception : Prop :=
  ∀ (S : List Byte) (s : State), s.sdEsc = .normal → (s.sdLen = 0 ∨ s.sdReady = true) →
    (1 ≤ S.length → S.length ≤ s.params.sdCap.val →
      (∃ t, execAll ((stuff S ++ [0xC0]).map Instr.sdPush) s =
          some (List.replicate ((stuff S).length + 1) [0x00], t) ∧
        t.sdReady = true ∧ t.sdLen.toNat = S.length ∧ t.sdm.holds 0 S ∧ t.sdEsc = .normal) ∧
      ∀ (p : List Byte) (c : Byte) (q : List Byte), stuff S ++ [0xC0] = p ++ c :: q →
        ∃ rs u v, execAll (p.map Instr.sdPush) s = some (rs, u) ∧ exec (.sdPush c) u = .next v ∧
          ((u.sdReady = false ∧ v.sdReady = true) ↔ q = [])) ∧
    (S = [] → execAll ((stuff S ++ [0xC0]).map Instr.sdPush) s = some ([[0x00]], { s with resp := [0x00] }))

/-- R165: a frame longer than `SD_CAP` is held truncated. Its first `SD_CAP` data bytes are kept; every later data byte
responds `BufferOverflow` and is dropped; the END makes the truncated frame ready. No record of the overflow is kept:
the state is that of the frame cut to `SD_CAP` bytes. (With `SD_CAP = 0` no byte is ever held and the END is ignored,
R153: the second clause.) -/
def Obligations.TruncatedFrameBecomesReady : Prop :=
  (∀ (S : List Byte) (s : State), s.sdEsc = .normal → (s.sdLen = 0 ∨ s.sdReady = true) →
    1 ≤ s.params.sdCap.val → s.params.sdCap.val < S.length →
    ∃ t, execAll ((stuff S ++ [0xC0]).map Instr.sdPush) s =
        some ((S.zipIdx.flatMap fun x =>
          List.replicate ((stuff1 x.1).length - 1) [0x00] ++ [if x.2 < s.params.sdCap.val then [0x00] else [0x01]])
            ++ [[0x00]], t) ∧
      t.sdReady = true ∧ t.sdLen.toNat = s.params.sdCap.val ∧ t.sdm.holds 0 (S.take s.params.sdCap.val) ∧
      t.sdEsc = .normal ∧
      ∃ rs, execAll ((stuff (S.take s.params.sdCap.val) ++ [0xC0]).map Instr.sdPush) s = some (rs, t)) ∧
  ∀ (S : List Byte) (s : State), s.sdEsc = .normal → s.sdLen = 0 → s.sdReady = false → s.params.sdCap.val = 0 →
    execAll ((stuff S ++ [0xC0]).map Instr.sdPush) s =
      some ((S.flatMap fun c => List.replicate ((stuff1 c).length - 1) [0x00] ++ [[0x01]]) ++ [[0x00]],
        { s with resp := [0x00] })

/-! ## Unit SE (42_slip_encoder.md) -/

/-- R192: `SE.PUSH c` appends the escape of `c` (`stuff1` of R191), one or two bytes, both or neither. -/
def Obligations.SePushAppendsEscaped : Prop :=
  ∀ (c : Byte) (s : State) (E : List Byte),
    E = (if c = 0xC0 then [0xDB, 0xDC] else if c = 0xDB then [0xDB, 0xDD] else [c]) →
    decode [0x30, c] = .instr (.sePush c) ∧
    ∃ u, exec (.sePush c) s = .next u ∧ s.frameSe u ∧
      (s.seLen.toNat + E.length ≤ s.params.seCap.val → s.seAppended E u) ∧
      (s.params.seCap.val < s.seLen.toNat + E.length → s.seOverflowed u)

/-- R193: `SE.END` appends one END and does not reset the cursor, or overflows and undoes nothing. -/
def Obligations.SeEndAppendsTerminator : Prop :=
  decode [0x31] = .instr .seEnd ∧
  ∀ s : State,
    ∃ u, exec .seEnd s = .next u ∧ s.frameSe u ∧
      (s.seLen.toNat + 1 ≤ s.params.seCap.val → s.seAppended [0xC0] u) ∧
      (s.params.seCap.val < s.seLen.toNat + 1 → s.seOverflowed u)

/-- R194: `SE.CLEAR` empties the transmit buffer. -/
def Obligations.SeClearEmptiesBuffer : Prop :=
  decode [0x32] = .instr .seClear ∧ ∀ s : State, exec .seClear s = .next { s with seLen := 0, resp := [0x00] }

/-- R195: `SE.READ idx` responds the byte at `idx` below the length, else `IndexOutOfRange` with a zero data byte; it
does not drain the buffer. -/
def Obligations.SeReadReturnsByte : Prop :=
  ∀ (idx : Half) (s : State),
    decode (0x3E :: indexBytes idx) = .instr (.seRead idx) ∧
    (s.seLen.toNat ≤ idx.toNat → exec (.seRead idx) s = .next { s with resp := [0x04, 0x00] }) ∧
    (∀ v, idx.toNat < s.seLen.toNat → s.sem.read idx.toNat = some v →
      exec (.seRead idx) s = .next { s with resp := [0x00, v] })

/-- R196: `SE.STATUS` responds the append cursor, high byte first; it changes nothing. -/
def Obligations.SeStatusReturnsCursor : Prop :=
  decode [0x3F] = .instr .seStatus ∧
  ∀ s : State,
    exec .seStatus s = .next { s with resp := [0x00, s.seLen.extractLsb' 8 8, s.seLen.extractLsb' 0 8] }

/-- R197: frame transmission. `SE.FRAME S` succeeds in every command exactly when the stuffed bytes and the END fit, and
then the stream holds them; the stuffed length counts the escaped bytes; the frame written holds 0xC0 only as its
last byte and 0xDB only as the first byte of an escape pair. -/
def Obligations.FrameTransmission : Prop :=
  ∀ (S : List Byte) (s : State),
    (∃ rs t, execAll (S.map Instr.sePush ++ [.seEnd]) s = some (rs, t) ∧
      ((∀ r ∈ rs, r = [0x00]) ↔ s.seLen.toNat + (stuff S).length + 1 ≤ s.params.seCap.val) ∧
      (s.seLen.toNat + (stuff S).length + 1 ≤ s.params.seCap.val →
        t.sem.holds s.seLen.toNat (stuff S ++ [0xC0]) ∧ t.seLen.toNat = s.seLen.toNat + (stuff S).length + 1)) ∧
    (stuff S).length = S.length + S.countP (fun c => c == 0xC0 || c == 0xDB) ∧
    (stuff S).length + 1 ≤ 2 * S.length + 1 ∧
    (∀ k : Nat, (stuff S ++ [0xC0])[k]? = some 0xC0 → k = (stuff S).length) ∧
    (∀ k : Nat, (stuff S ++ [0xC0])[k]? = some 0xDB →
      (stuff S ++ [0xC0])[k + 1]? = some 0xDC ∨ (stuff S ++ [0xC0])[k + 1]? = some 0xDD)

/-- C5, R164, R197: the SLIP round trip. A non-empty payload that the transmit buffer can take from empty, sent by
`SE.FRAME`, read out with `SE.READ` and fed to the decoder, is the frame the decoder then holds ready. -/
def Obligations.SlipRoundTrip : Prop :=
  ∀ (S : List Byte) (s : State),
    1 ≤ S.length → S.length ≤ s.params.sdCap.val → (stuff S).length + 1 ≤ s.params.seCap.val →
    s.seLen = 0 → s.sdEsc = .normal → (s.sdLen = 0 ∨ s.sdReady = true) →
    ∃ (rs : List (List Byte)) (t : State) (F : List Byte) (u : State) (rs' : List (List Byte)) (v : State),
      execAll (S.map Instr.sePush ++ [.seEnd]) s = some (rs, t) ∧
      execAll ((List.range t.seLen.toNat).map fun k => .seRead (BitVec.ofNat 16 k)) t =
        some (F.map fun b => [0x00, b], u) ∧
      execAll (F.map Instr.sdPush) u = some (rs', v) ∧
      v.sdReady = true ∧ v.sdLen.toNat = S.length ∧ v.sdm.holds 0 S

/-! ## The whole machine -/

/-- R251: right after reset, whatever the instance's capacities, the registers hold their reset values, `CMD_BUF` is
empty, no response waits and the reset input is released (R250), and the invariant holds. Two parts are the model's:
that the command port is empty (log 2), and that the buffers hold "no value", which R252 allows (log 6). The state
`State.reset` is one of these. -/
def Obligations.InvHoldsAtReset : Prop :=
  (∀ p : Params,
    (State.resetFor p).osCur = 0 ∧ (State.resetFor p).sdEsc = .normal ∧ (State.resetFor p).sdLen = 0 ∧
    (State.resetFor p).sdReady = false ∧ (State.resetFor p).seLen = 0 ∧ (State.resetFor p).cmdBuf = [] ∧
    (State.resetFor p).port = [] ∧ (State.resetFor p).resp = [] ∧ (State.resetFor p).resetAsserted = false ∧
    (State.resetFor p).Inv) ∧
  ∃ p : Params, State.reset = State.resetFor p

/-- The invariant (sound buffers, R23 to R27, R29, R31, R62; no empty frame ready, R26; an incomplete packet in
`CMD_BUF`, R28; what waits on the response port is the rest of one response in a layout of R74) is kept by every
step. -/
def Obligations.StepKeepsInv : Prop :=
  ∀ s t : State, s.Inv → step s = .next t → t.Inv

/-- R31, R252, R226: in a state of the invariant every command completes: no read meets a byte that nothing has written,
no write is outside a buffer, and no failure stops the block. -/
def Obligations.LegalStatesStopNoCommand : Prop :=
  ∀ (i : Instr) (s : State), s.Inv → ∃ t, exec i s = .next t

/-- In a state of the invariant a step stops only because the host does nothing more and the block can take no byte: it
is idle (R236), or stuck on a packet left incomplete (U6), on a response never taken (U7) or under reset. (That this
is a fault is the model's, log 2.) No step is refused. -/
def Obligations.StepStopsOnlyOnHost : Prop :=
  ∀ s : State, s.Inv → (∃ t, step s = .next t) ∨ (step s = .fault .hostSilent ∧ s.host = [] ∧ s.portWaits)

/-- R30: no command of one unit writes another unit's registers or buffer. -/
def Obligations.CommandsWriteOnlyTheirUnit : Prop :=
  ∀ (i : Instr) (s t : State), exec i s = .next t → s.frameOf (codecUnitOf i) t

/-- R30: no command of one unit reads another unit's registers or buffer: two states that agree on the unit give the
same response and agree on the unit afterwards, or stop alike. -/
def Obligations.CommandsReadOnlyTheirUnit : Prop :=
  ∀ (i : Instr) (s s' : State), s.agreeOn (codecUnitOf i) s' →
    (∃ t t', exec i s = .next t ∧ exec i s' = .next t' ∧ t.resp = t'.resp ∧ t.agreeOn (codecUnitOf i) t') ∨
    (∃ f, exec i s = .fault f ∧ exec i s' = .fault f)

/-- R63: the read and STATUS commands change no state, and repeating one gives the same response. -/
def Obligations.ReadsHaveNoSideEffects : Prop :=
  ∀ (i : Instr) (s t : State),
    ((∃ idx, i = .osRead idx ∨ i = .sdRead idx ∨ i = .seRead idx) ∨ i = .osStatus ∨ i = .sdStatus ∨ i = .seStatus) →
    exec i s = .next t → t = { s with resp := t.resp } ∧ exec i t = .next t

/-- R61, R221: a command that fails for want of capacity writes no buffer, and the only registers it changes are those
its rule names: `OS.BEGIN` sets `OS_CUR` to 0, and `SD.PUSH` in `Escaped` returns to `Normal`. -/
def Obligations.OverflowWritesNothing : Prop :=
  ∀ (i : Instr) (s t : State), s.sdLegal → exec i s = .next t → t.resp = [0x01] →
    t = { s with
          osCur := (match i with | .osBegin _ _ => 0 | _ => s.osCur)
          sdEsc := (match i with | .sdPush _ => .normal | _ => s.sdEsc)
          resp := [0x01] }

/-- R62: no command writes outside a buffer's `[0, capacity)`, in any state at all. -/
def Obligations.NoWriteOutsideBuffers : Prop :=
  ∀ (i : Instr) (s t : State), exec i s = .next t →
    (∀ a, s.params.osCap.val ≤ a → t.osm.read a = s.osm.read a) ∧
    (∀ a, s.params.sdCap.val ≤ a → t.sdm.read a = s.sdm.read a) ∧
    (∀ a, s.params.seCap.val ≤ a → t.sem.read a = s.sem.read a)

/-- R8, R253: the capacities never change while the block runs. -/
def Obligations.CapacitiesNeverChange : Prop :=
  ∀ s t : State, step s = .next t → t.params = s.params

/-- R250: the reset input. The host can assert it at any step in which it acts. A release, whatever the host did and
whatever the block was doing before it, gives every register its reset value, an empty `CMD_BUF` and no undelivered
response. While reset is asserted the block takes no command byte and sends no response byte. Four parts are the
model's: that the registers take their values at the release, that driving the input to the level it has changes
nothing, that the bytes on the command port stay there (log 5), and that a take under reset steps on and changes
nothing (log 4). -/
def Obligations.ResetInputRestoresReset : Prop :=
  (∀ (s : State) (later : List HostAct), s.portWaits → s.host = .resetLine true :: later →
    step s = .next { s with host := later, resetAsserted := true }) ∧
  (∀ (s : State) (later : List HostAct), s.resetAsserted = true → s.host = .resetLine false :: later →
    ∃ u, step s = .next u ∧
      u.osCur = 0 ∧ u.sdEsc = .normal ∧ u.sdLen = 0 ∧ u.sdReady = false ∧ u.seLen = 0 ∧ u.cmdBuf = [] ∧ u.resp = [] ∧
      u.resetAsserted = false ∧ u.params = s.params ∧ u.port = s.port ∧ u.host = later ∧ u.out = s.out) ∧
  (∀ (s : State) (later : List HostAct), s.portWaits → s.resetAsserted = false → s.host = .resetLine false :: later →
    step s = .next { s with host := later }) ∧
  (∀ (s : State) (later : List HostAct), s.resetAsserted = true → s.host = .take :: later →
    step s = .next { s with host := later }) ∧
  (∀ s t : State, s.resetAsserted = true → step s = .next t → t.resetAsserted = true →
    s.sameOs t ∧ s.sameSd t ∧ s.sameSe t ∧ t.cmdBuf = s.cmdBuf ∧ t.resp = s.resp ∧ t.out = s.out ∧ s.port <+: t.port)

/-- R81: what `OS.MSG "<a>", "<t>", v1, ..., vk` expands to. The assembler accepts it exactly when there is one value per
tag and each value suits its tag; it then gives `OS.BEGIN` and one append per tag, in tag order, each the append of its
tag (`i`, `f`, `s`, `b`, no other) with its own value; otherwise, and for any other operands, it emits nothing. Which
token a value is (a number, a `0x` pattern, a text, a blob) is the model's reading of R80 (log 13). -/
def Obligations.MessagePseudoFollowsTags : Prop :=
  (∀ (a t : List Byte) (vs : List Token) (js : List Instr), expand .osMsg (msgTokens a t vs) = some js ↔
    ∃ is : List Instr, js = .osBegin a t :: is ∧ vs.length = t.length ∧ is.length = t.length ∧
      ∀ (k : Nat) (c : Byte) (v : Token) (i : Instr), t[k]? = some c → vs[k]? = some v → is[k]? = some i →
        ∃ o, tagOpcode c = some o ∧ commandOf o [v] = some i) ∧
  (∀ ts : List Token, (∀ a t vs, ts ≠ msgTokens a t vs) → expand .osMsg ts = none) ∧
  (tagOpcode 0x69 = some .osI32 ∧ tagOpcode 0x66 = some .osF32 ∧ tagOpcode 0x73 = some .osStr ∧
    tagOpcode 0x62 = some .osBlob ∧
    ∀ c : Byte, c ≠ 0x69 → c ≠ 0x66 → c ≠ 0x73 → c ≠ 0x62 → tagOpcode c = none) ∧
  ∀ (v : Token) (i : Instr),
    (commandOf .osI32 [v] = some i ↔ ∃ cs w, v = .word cs ∧ parseInt cs = some w ∧ i = .osI32 w) ∧
    (commandOf .osF32 [v] = some i ↔ ∃ cs w, v = .word cs ∧ parsePattern cs = some w ∧ i = .osF32 w) ∧
    (commandOf .osStr [v] = some i ↔ ∃ d, v = .text d ∧ i = .osStr d) ∧
    (commandOf .osBlob [v] = some i ↔ ∃ d, v = .blob d ∧ i = .osBlob d)

/-- R81: what the pseudo-instructions over bytes expand to: one push per byte in order, and for `SE.FRAME` an `SE.END`
after them. (The shape of the tokens is the model's reading of R80, log 13.) -/
def Obligations.BytePseudosPushInOrder : Prop :=
  ∀ (c : List Char) (cs : List (List Char)) (bs : List Byte),
    (c :: cs).map (parseNat 256) = bs.map (fun b => some b.toNat) →
      expand .sdFeed (byteTokens c cs) = some (bs.map .sdPush) ∧
      expand .seSend (byteTokens c cs) = some (bs.map .sePush) ∧
      expand .seFrame (byteTokens c cs) = some (bs.map .sePush ++ [.seEnd])
end

