-- ==== Sys2Proof/Laws/Decode.lean ====
section
/-! SUPPORT. The small laws of the encoding: big-endian fields, the opcode map, packet lengths, what the decoder's
answers mean. -/

namespace Sys2Proof

/-! ## Big-endian fields -/

@[simp] theorem beBytes_length (n v : Nat) : (beBytes n v).length = n := by
  induction n with
  | zero => rfl
  | succ n ih => simp [beBytes, ih]

theorem beValueFrom_eq (acc : Nat) (bs : List Byte) :
    beValueFrom acc bs = acc * 256 ^ bs.length + beValue bs := by
  induction bs generalizing acc with
  | nil => simp [beValueFrom, beValue]
  | cons b bs ih =>
    have hb : beValue (b :: bs) = beValueFrom b.toNat bs := by simp [beValue, beValueFrom]
    rw [hb, ih b.toNat, beValueFrom, ih, List.length_cons, Nat.pow_succ]
    ring

theorem beValue_cons (b : Byte) (bs : List Byte) :
    beValue (b :: bs) = b.toNat * 256 ^ bs.length + beValue bs := by
  rw [beValue, beValueFrom, beValueFrom_eq]; simp

theorem beValue_lt (bs : List Byte) : beValue bs < 256 ^ bs.length := by
  induction bs with
  | nil => simp [beValue, beValueFrom]
  | cons b bs ih =>
    rw [beValue_cons, List.length_cons, Nat.pow_succ]
    have hb : b.toNat ≤ 255 := by have := b.isLt; omega
    have hp := Nat.mul_le_mul_right (256 ^ bs.length) hb
    omega

theorem beValue_beBytes (n v : Nat) : beValue (beBytes n v) = v % 256 ^ n := by
  induction n with
  | zero => simp [beBytes, beValue, beValueFrom, Nat.mod_one]
  | succ n ih =>
    rw [beBytes, beValue_cons, ih, beBytes_length, Nat.mod_pow_succ, BitVec.toNat_ofNat]
    ring

theorem beBytes_beValue (bs : List Byte) : beBytes bs.length (beValue bs) = bs := by
  induction bs with
  | nil => rfl
  | cons b bs ih =>
    have hlt := beValue_lt bs
    have hmod : ∀ n v w, beBytes n (v * 256 ^ n + w) = beBytes n w := by
      intro n
      induction n with
      | zero => intros; rfl
      | succ n ih =>
        intro v w
        have hdiv : (v * 256 ^ (n + 1) + w) / 256 ^ n = v * 256 + w / 256 ^ n := by
          rw [Nat.pow_succ, show v * (256 ^ n * 256) + w = w + 256 ^ n * (v * 256) by ring,
            Nat.add_mul_div_left _ _ (Nat.pos_of_ne_zero (by positivity))]
          omega
        have hrest := ih (v * 256) w
        rw [show v * 256 * 256 ^ n = v * 256 ^ (n + 1) by ring] at hrest
        rw [beBytes, beBytes, hdiv, hrest]
        congr 1
        apply BitVec.eq_of_toNat_eq
        simp [BitVec.toNat_ofNat, Nat.add_mod]
    rw [List.length_cons, beBytes, beValue_cons, hmod, ih]
    congr 1
    apply BitVec.eq_of_toNat_eq
    rw [show b.toNat * 256 ^ bs.length + beValue bs = beValue bs + 256 ^ bs.length * b.toNat by ring,
      Nat.add_mul_div_left _ _ (Nat.pos_of_ne_zero (by positivity)), Nat.div_eq_of_lt hlt]
    simp

/-- A 32-bit value as four bytes, most significant first (R54). -/
theorem beBytes_four (w : Word) :
    beBytes 4 w.toNat =
      [w.extractLsb' 24 8, w.extractLsb' 16 8, w.extractLsb' 8 8, w.extractLsb' 0 8] := by
  simp only [beBytes, List.cons.injEq, and_true]
  refine ⟨?_, ?_, ?_, ?_⟩ <;> apply BitVec.eq_of_toNat_eq <;>
    simp [BitVec.extractLsb'_toNat, Nat.shiftRight_eq_div_pow]

/-- A 16-bit value as two bytes, most significant first (R55). -/
theorem beBytes_two (h : Half) : beBytes 2 h.toNat = [h.extractLsb' 8 8, h.extractLsb' 0 8] := by
  simp only [beBytes, List.cons.injEq, and_true]
  refine ⟨?_, ?_⟩ <;> apply BitVec.eq_of_toNat_eq <;>
    simp [BitVec.extractLsb'_toNat, Nat.shiftRight_eq_div_pow]

/-! ## C string operands -/

theorem noNul_iff {d : List Byte} : noNul d = true ↔ (0x00 : Byte) ∉ d := by
  simp only [noNul, List.all_eq_true, bne_iff_ne]
  exact ⟨fun h hm => h _ hm rfl, fun h x hx hx0 => h (hx0 ▸ hx)⟩

theorem fitsLength_iff {d : List Byte} : fitsLength d = true ↔ d.length < 65536 := by
  simp [fitsLength]

/-! ## The opcode map -/

@[simp] theorem Opcode.ofByte_code (o : Opcode) : Opcode.ofByte o.code = some o := by
  cases o <;> decide

theorem Opcode.code_of_ofByte {op : Byte} {o : Opcode} (h : Opcode.ofByte op = some o) : o.code = op := by
  have := List.find?_some h
  simpa using this

@[simp] theorem formatOf_code (o : Opcode) : formatOf o.code = o.format := by
  simp [formatOf]

theorem parsePacket_code (o : Opcode) (rest : List Byte) : parsePacket (o.code :: rest) = parseOperands o rest := by
  simp only [parsePacket, Opcode.ofByte_code]

/-! ## Packet lengths -/

theorem lengthField_append {bs : List Byte} {n : Nat} (cs : List Byte) (h : lengthField bs = some n) :
    lengthField (bs ++ cs) = some n := by
  match bs, h with
  | _ :: _ :: _, h => exact h

theorem two_le_length_of_lengthField {bs : List Byte} {n : Nat} (h : lengthField bs = some n) : 2 ≤ bs.length := by
  match bs, h with
  | _ :: _ :: _, _ => simp

theorem lengthField_eq_none_iff {bs : List Byte} : lengthField bs = none ↔ bs.length < 2 := by
  match bs with
  | [] => simp [lengthField]
  | [_] => simp [lengthField]
  | _ :: _ :: _ => simp [lengthField]

/-- A decided packet length does not change as more bytes arrive (R73). -/
theorem packetLength_append {bs : List Byte} {n : Nat} (cs : List Byte) (h : packetLength? bs = some n) :
    packetLength? (bs ++ cs) = some n := by
  match bs, h with
  | op :: rest, h =>
    simp only [packetLength?, List.cons_append] at h ⊢
    split <;> rename_i hf <;> simp only [hf] at h ⊢ <;> try exact h
    · cases hl : lengthField rest with
      | none => simp [hl] at h
      | some len => simpa [hl, lengthField_append cs hl] using h
    · cases hl : lengthField rest with
      | none => simp [hl] at h
      | some alen =>
        simp only [hl, lengthField_append cs hl] at h ⊢
        cases hd : lengthField (rest.drop (2 + alen)) with
        | none => simp [hd] at h
        | some tlen =>
          have hlen := two_le_length_of_lengthField hd
          rw [List.length_drop] at hlen
          rw [List.drop_append_of_le_length (by omega), lengthField_append cs hd]
          simpa [hd] using h

/-- A packet length is decided no later than the packet's last byte (R73). -/
theorem length_lt_of_packetLength_none {bs : List Byte} {b : Byte} {n : Nat} (h : packetLength? bs = none)
    (h' : packetLength? (bs ++ [b]) = some n) : bs.length < n := by
  match bs, h with
  | [], _ =>
    simp only [packetLength?, List.nil_append] at h'
    split at h' <;> simp_all [lengthField] <;> omega
  | op :: rest, h =>
    simp only [packetLength?, List.cons_append] at h h'
    split at h <;> rename_i hf <;> simp only [hf] at h' <;> try cases h
    · simp only [Option.map_eq_none_iff, lengthField_eq_none_iff] at h
      simp only [Option.map_eq_some_iff] at h'
      obtain ⟨_, _, rfl⟩ := h'
      simp only [List.length_cons]; omega
    · cases hl : lengthField rest with
      | none =>
        have hlt := lengthField_eq_none_iff.mp hl
        cases hl' : lengthField (rest ++ [b]) with
        | none => simp [hl'] at h'
        | some alen =>
          have : (rest ++ [b]).drop (2 + alen) = [] := by simp; omega
          have hnil : lengthField ([] : List Byte) = none := rfl
          simp [hl', this, hnil] at h'
      | some alen =>
        simp only [hl, Option.map_eq_none_iff, lengthField_eq_none_iff, List.length_drop] at h
        simp only [lengthField_append [b] hl, Option.map_eq_some_iff] at h'
        obtain ⟨_, _, rfl⟩ := h'
        simp only [List.length_cons]; omega

/-! ## What the decoder's answers mean -/

theorem parseOperands_complete (o : Opcode) (rest : List Byte) :
    parseOperands o rest ≠ .incomplete ∧ parseOperands o rest ≠ .overlong := by
  cases o <;> simp only [parseOperands] <;> (try split) <;> simp

theorem parsePacket_complete {bs : List Byte} (h : bs ≠ []) :
    parsePacket bs ≠ .incomplete ∧ parsePacket bs ≠ .overlong := by
  match bs with
  | op :: rest =>
    simp only [parsePacket]
    split
    · simp
    · exact parseOperands_complete _ _

theorem packetLength_pos {bs : List Byte} {n : Nat} (h : packetLength? bs = some n) : 0 < n := by
  match bs, h with
  | op :: rest, h =>
    simp only [packetLength?] at h
    split at h <;> try (cases h; omega)
    · simp only [Option.map_eq_some_iff] at h; obtain ⟨_, _, rfl⟩ := h; omega
    · split at h
      · cases h
      · simp only [Option.map_eq_some_iff] at h; obtain ⟨_, _, rfl⟩ := h; omega

/-- The decoder waits exactly while the bytes are fewer than their packet's length, or do not yet decide it (R72, R73). -/
theorem decode_incomplete_iff {bs : List Byte} :
    decode bs = .incomplete ↔ ∀ n, packetLength? bs = some n → bs.length < n := by
  unfold decode
  cases h : packetLength? bs with
  | none => simp
  | some n =>
    have hpos := packetLength_pos h
    simp only [Option.some.injEq, forall_eq']
    split
    · simpa
    · split
      · simp; omega
      · have hne : bs ≠ [] := by rintro rfl; simp at *; omega
        simp [(parsePacket_complete hne).1]; omega

/-- A complete packet is parsed; anything else is not. -/
theorem decode_complete {bs : List Byte} (h : packetLength? bs = some bs.length) : decode bs = parsePacket bs := by
  simp [decode, h]

/-- A command or an illegal command is a complete packet. -/
theorem packetLength_of_decode {bs : List Byte} (h : decode bs ≠ .incomplete) (h' : decode bs ≠ .overlong) :
    packetLength? bs = some bs.length := by
  unfold decode at h h'
  cases hl : packetLength? bs with
  | none => simp [hl] at h
  | some n =>
    simp only [hl] at h h'
    split at h
    · simp at h
    · split at h'
      · contradiction
      · split at h'
        · simp at h'
        · simp; omega

/-- One more byte after an incomplete packet never goes past its end, so `CMD_BUF` never holds more than one packet
(R28, R73). -/
theorem decode_append_ne_overlong {bs : List Byte} (b : Byte) (h : decode bs = .incomplete) :
    decode (bs ++ [b]) ≠ .overlong := by
  intro h'
  unfold decode at h'
  cases hl : packetLength? (bs ++ [b]) with
  | none => simp [hl] at h'
  | some n =>
    simp only [hl] at h'
    split at h'
    · cases h'
    · split at h'
      · have hlt : n < bs.length + 1 := by simpa using ‹n < (bs ++ [b]).length›
        cases hb : packetLength? bs with
        | none => have := length_lt_of_packetLength_none hb hl; omega
        | some m =>
          have hm := packetLength_append [b] hb
          rw [hl] at hm; cases hm
          have := decode_incomplete_iff.mp h n hb
          omega
      · exact (parsePacket_complete (by simp)).2 h'

/-- The empty `CMD_BUF` is an incomplete packet. -/
@[simp] theorem decode_nil : decode [] = .incomplete := rfl

end Sys2Proof
end

