-- ==== Sys2Proof/Laws/Memory.lean ====
section
/-! SUPPORT. The laws of the buffers: a read after a write, the canonical form, and soundness of a buffer after an
append or a cut. -/

namespace Sys2Proof.Machine

theorem Memory.read_write (m : Memory) (a x : Nat) (v : Byte) :
    (m.write a v).read x = if x = a then some v else m.read x := by
  induction m with
  | nil => simp [Memory.write, Memory.read]
  | cons c m ih =>
    obtain ⟨k, w⟩ := c
    simp only [Memory.write]
    split
    · simp [Memory.read]
    · split
      · subst_vars; simp only [Memory.read]; split <;> simp_all
      · simp only [Memory.read, ih]; split <;> split <;> simp_all

@[simp] theorem Memory.read_write_same (m : Memory) (a : Nat) (v : Byte) : (m.write a v).read a = some v := by
  simp [Memory.read_write]

theorem Memory.read_write_of_ne (m : Memory) {a x : Nat} (v : Byte) (h : x ≠ a) :
    (m.write a v).read x = m.read x := by
  simp [Memory.read_write, h]

theorem Memory.writeSeq_append (m : Memory) (a : Nat) (bs cs : List Byte) :
    m.writeSeq a (bs ++ cs) = (m.writeSeq a bs).writeSeq (a + bs.length) cs := by
  induction bs generalizing m a with
  | nil => rfl
  | cons b bs ih =>
    have hl : a + 1 + bs.length = a + (b :: bs).length := by simp only [List.length_cons]; omega
    rw [List.cons_append, Memory.writeSeq, Memory.writeSeq, ih, hl]

theorem Memory.read_writeSeq_outside (m : Memory) (a : Nat) (bs : List Byte) (x : Nat)
    (h : x < a ∨ a + bs.length ≤ x) : (m.writeSeq a bs).read x = m.read x := by
  induction bs generalizing m a with
  | nil => rfl
  | cons b bs ih =>
    simp only [List.length_cons] at h
    rw [Memory.writeSeq, ih _ _ (by omega), Memory.read_write_of_ne _ _ (by omega)]

theorem Memory.read_writeSeq_inside (m : Memory) (a : Nat) (bs : List Byte) (k : Nat) (h : k < bs.length) :
    (m.writeSeq a bs).read (a + k) = bs[k]? := by
  induction bs generalizing m a k with
  | nil => simp at h
  | cons b bs ih =>
    cases k with
    | zero => rw [Memory.writeSeq, Memory.read_writeSeq_outside _ _ _ _ (by omega)]; simp
    | succ k =>
      have := ih (m.write a b) (a + 1) k (by simpa using h)
      simpa [Memory.writeSeq, Nat.add_assoc, Nat.add_comm 1 k] using this

theorem Memory.holds_writeSeq (m : Memory) (a : Nat) (bs : List Byte) : (m.writeSeq a bs).holds a bs :=
  fun k h => m.read_writeSeq_inside a bs k h

theorem Memory.sameOutside_writeSeq (m : Memory) (a : Nat) (bs : List Byte) :
    m.sameOutside (m.writeSeq a bs) a bs.length :=
  fun x h => m.read_writeSeq_outside a bs x h

/-! ## The canonical form -/

theorem Memory.risingFrom_mono {m : Memory} {lo lo' : Nat} (hle : lo' ≤ lo) (h : m.risingFrom lo = true) :
    m.risingFrom lo' = true := by
  cases m with
  | nil => rfl
  | cons c m => simp_all [Memory.risingFrom]; omega

theorem Memory.risingFrom_write (m : Memory) (lo a : Nat) (v : Byte) (hlo : lo ≤ a) (h : m.risingFrom lo = true) :
    (m.write a v).risingFrom lo = true := by
  induction m generalizing lo with
  | nil => simpa [Memory.write, Memory.risingFrom]
  | cons c m ih =>
    obtain ⟨k, w⟩ := c
    simp only [Memory.risingFrom, Bool.and_eq_true, decide_eq_true_eq] at h
    simp only [Memory.write]
    split
    · simpa [Memory.risingFrom, hlo, h.2] using ‹a < k›
    · split
      · subst_vars; simp [Memory.risingFrom, h.2, hlo]
      · simp [Memory.risingFrom, h.1, ih (k + 1) (by omega) h.2]

theorem Memory.wf_write {m : Memory} (a : Nat) (v : Byte) (h : m.wf = true) : (m.write a v).wf = true :=
  m.risingFrom_write 0 a v (Nat.zero_le a) h

theorem Memory.wf_writeSeq {m : Memory} (a : Nat) (bs : List Byte) (h : m.wf = true) :
    (m.writeSeq a bs).wf = true := by
  induction bs generalizing m a with
  | nil => exact h
  | cons b bs ih => exact ih (a + 1) (Memory.wf_write a b h)

theorem Memory.wf_writeBE {m : Memory} (a n v : Nat) (h : m.wf = true) : (m.writeBE a n v).wf = true :=
  Memory.wf_writeSeq a (beBytes n v) h

/-- The canonical form of the empty buffer of the state after reset. -/
theorem Memory.wf_nil : Memory.wf [] = true := rfl

/-- No entry of a rising list lies below its start. -/
theorem Memory.read_eq_none_of_lt {m : Memory} {lo x : Nat} (h : m.risingFrom lo = true) (hx : x < lo) :
    m.read x = none := by
  induction m generalizing lo with
  | nil => rfl
  | cons c m ih =>
    obtain ⟨k, w⟩ := c
    simp only [Memory.risingFrom, Bool.and_eq_true, decide_eq_true_eq] at h
    have hk : x ≠ k := by omega
    simp only [Memory.read, if_neg hk]
    exact ih h.2 (by omega)

/-- Equal buffers are equal data: canonical buffers that read alike are the same list. -/
theorem Memory.ext_of_risingFrom {m m' : Memory} {lo : Nat} (h : m.risingFrom lo = true)
    (h' : m'.risingFrom lo = true) (hr : ∀ x, m.read x = m'.read x) : m = m' := by
  induction m generalizing m' lo with
  | nil =>
    cases m' with
    | nil => rfl
    | cons c m' => have := hr c.1; simp [Memory.read] at this
  | cons c m ih =>
    obtain ⟨k, w⟩ := c
    cases m' with
    | nil => have := hr k; simp [Memory.read] at this
    | cons c' m' =>
      obtain ⟨k', w'⟩ := c'
      simp only [Memory.risingFrom, Bool.and_eq_true, decide_eq_true_eq] at h h'
      have hkk : k = k' := by
        by_contra hne
        rcases Nat.lt_or_gt_of_ne hne with hlt | hlt
        · have := hr k
          simp [Memory.read, hne, Memory.read_eq_none_of_lt h'.2 (show k < k' + 1 by omega)] at this
        · have := hr k'
          simp [Memory.read, Ne.symm hne, Memory.read_eq_none_of_lt h.2 (show k' < k + 1 by omega)] at this
      subst hkk
      have hw : w = w' := by have := hr k; simpa [Memory.read] using this
      subst hw
      have htail : m = m' := by
        refine ih h.2 h'.2 (fun x => ?_)
        by_cases hx : x = k
        · rw [Memory.read_eq_none_of_lt h.2 (by omega), Memory.read_eq_none_of_lt h'.2 (by omega)]
        · have := hr x; simpa [Memory.read, hx] using this
      rw [htail]

/-- Canonical buffers that read alike are equal. -/
theorem Memory.ext_of_wf {m m' : Memory} (h : m.wf = true) (h' : m'.wf = true)
    (hr : ∀ x, m.read x = m'.read x) : m = m' :=
  Memory.ext_of_risingFrom h h' hr

/-! ## Sound buffers -/

/-- The empty buffer is sound for every capacity. -/
theorem Memory.sound_nil (cap : Nat) : Memory.Sound [] cap 0 :=
  ⟨rfl, fun _ _ => rfl, Nat.zero_le _, fun _ h => absurd h (Nat.not_lt_zero _)⟩

/-- A shorter length keeps a buffer sound. -/
theorem Memory.Sound.shorten {m : Memory} {cap len n : Nat} (h : m.Sound cap len) (hn : n ≤ len) : m.Sound cap n :=
  ⟨h.canonical, h.inside, Nat.le_trans hn h.fits, fun a ha => h.written a (by omega)⟩

/-- An append that fits keeps a buffer sound for the longer length. -/
theorem Memory.Sound.append {m : Memory} {cap len : Nat} (h : m.Sound cap len) (bs : List Byte)
    (hfit : len + bs.length ≤ cap) : (m.writeSeq len bs).Sound cap (len + bs.length) where
  canonical := Memory.wf_writeSeq len bs h.canonical
  inside a ha := by rw [Memory.read_writeSeq_outside _ _ _ _ (by omega)]; exact h.inside a ha
  fits := hfit
  written a ha := by
    by_cases hlt : a < len
    · rw [Memory.read_writeSeq_outside _ _ _ _ (by omega)]; exact h.written a hlt
    · obtain ⟨k, rfl⟩ : ∃ k, a = len + k := ⟨a - len, by omega⟩
      rw [Memory.read_writeSeq_inside _ _ _ _ (by omega)]
      simp [show k < bs.length by omega]

end Sys2Proof.Machine
end

