-- ==== Sys2Proof/Laws/State.lean ====
section
/-! SUPPORT. The fields of a state after the model's named updates: the state after reset, a placed packet, the
decoder's discard. A field of a plain record update is closed by `rfl` or `simp` without a lemma. -/

namespace Sys2Proof.Machine

section Reset
variable (p : Params)

@[simp] theorem State.resetFor_params : (State.resetFor p).params = p := rfl
@[simp] theorem State.resetFor_osCur : (State.resetFor p).osCur = 0 := rfl
@[simp] theorem State.resetFor_osm : (State.resetFor p).osm = [] := rfl
@[simp] theorem State.resetFor_sdEsc : (State.resetFor p).sdEsc = .normal := rfl
@[simp] theorem State.resetFor_sdLen : (State.resetFor p).sdLen = 0 := rfl
@[simp] theorem State.resetFor_sdReady : (State.resetFor p).sdReady = false := rfl
@[simp] theorem State.resetFor_sdm : (State.resetFor p).sdm = [] := rfl
@[simp] theorem State.resetFor_seLen : (State.resetFor p).seLen = 0 := rfl
@[simp] theorem State.resetFor_sem : (State.resetFor p).sem = [] := rfl
@[simp] theorem State.resetFor_port : (State.resetFor p).port = [] := rfl
@[simp] theorem State.resetFor_cmdBuf : (State.resetFor p).cmdBuf = [] := rfl
@[simp] theorem State.resetFor_resp : (State.resetFor p).resp = [] := rfl
@[simp] theorem State.resetFor_resetAsserted : (State.resetFor p).resetAsserted = false := rfl
@[simp] theorem State.resetFor_host : (State.resetFor p).host = [] := rfl
@[simp] theorem State.resetFor_out : (State.resetFor p).out = [] := rfl

end Reset

section Place
variable (q : List Byte) (s : State)

@[simp] theorem placePacket_params : (placePacket q s).params = s.params := rfl
@[simp] theorem placePacket_osCur : (placePacket q s).osCur = s.osCur := rfl
@[simp] theorem placePacket_osm : (placePacket q s).osm = s.osm := rfl
@[simp] theorem placePacket_sdEsc : (placePacket q s).sdEsc = s.sdEsc := rfl
@[simp] theorem placePacket_sdLen : (placePacket q s).sdLen = s.sdLen := rfl
@[simp] theorem placePacket_sdReady : (placePacket q s).sdReady = s.sdReady := rfl
@[simp] theorem placePacket_sdm : (placePacket q s).sdm = s.sdm := rfl
@[simp] theorem placePacket_seLen : (placePacket q s).seLen = s.seLen := rfl
@[simp] theorem placePacket_sem : (placePacket q s).sem = s.sem := rfl
@[simp] theorem placePacket_port : (placePacket q s).port = q.getLast?.toList ++ s.port := rfl
@[simp] theorem placePacket_cmdBuf : (placePacket q s).cmdBuf = q.dropLast := rfl
@[simp] theorem placePacket_resp : (placePacket q s).resp = [] := rfl
@[simp] theorem placePacket_resetAsserted : (placePacket q s).resetAsserted = false := rfl
@[simp] theorem placePacket_host : (placePacket q s).host = s.host := rfl
@[simp] theorem placePacket_out : (placePacket q s).out = s.out := rfl

end Place

section Discard
variable (s : State)

@[simp] theorem sdDiscard_params : (sdDiscard s).params = s.params := by unfold sdDiscard; split <;> rfl
@[simp] theorem sdDiscard_osCur : (sdDiscard s).osCur = s.osCur := by unfold sdDiscard; split <;> rfl
@[simp] theorem sdDiscard_osm : (sdDiscard s).osm = s.osm := by unfold sdDiscard; split <;> rfl
@[simp] theorem sdDiscard_sdEsc : (sdDiscard s).sdEsc = s.sdEsc := by unfold sdDiscard; split <;> rfl
@[simp] theorem sdDiscard_sdm : (sdDiscard s).sdm = s.sdm := by unfold sdDiscard; split <;> rfl
@[simp] theorem sdDiscard_seLen : (sdDiscard s).seLen = s.seLen := by unfold sdDiscard; split <;> rfl
@[simp] theorem sdDiscard_sem : (sdDiscard s).sem = s.sem := by unfold sdDiscard; split <;> rfl
@[simp] theorem sdDiscard_port : (sdDiscard s).port = s.port := by unfold sdDiscard; split <;> rfl
@[simp] theorem sdDiscard_cmdBuf : (sdDiscard s).cmdBuf = s.cmdBuf := by unfold sdDiscard; split <;> rfl
@[simp] theorem sdDiscard_resp : (sdDiscard s).resp = s.resp := by unfold sdDiscard; split <;> rfl
@[simp] theorem sdDiscard_resetAsserted : (sdDiscard s).resetAsserted = s.resetAsserted := by
  unfold sdDiscard; split <;> rfl
@[simp] theorem sdDiscard_host : (sdDiscard s).host = s.host := by unfold sdDiscard; split <;> rfl
@[simp] theorem sdDiscard_out : (sdDiscard s).out = s.out := by unfold sdDiscard; split <;> rfl
@[simp] theorem sdDiscard_sdReady : (sdDiscard s).sdReady = false := by
  unfold sdDiscard; split <;> simp_all
@[simp] theorem sdDiscard_sdLen : (sdDiscard s).sdLen = if s.sdReady then 0 else s.sdLen := by
  unfold sdDiscard; split <;> rfl

end Discard

end Sys2Proof.Machine
end

