-- ==== Sys2Proof/Laws/Ops.lean ====
section
/-! SUPPORT. One lemma per shared operation that says everything it does: how a command ends, the capacity-checked
appends, the decoder's append, the read-back. Later proofs cite these and do not unfold the operations. -/

namespace Sys2Proof.Machine

/-! ## Endings -/

@[simp] theorem respond_eq (st : Status) (data : List Byte) (s : State) :
    respond st data s = .next { s with resp := st.code :: data } := rfl

@[simp] theorem raise_eq (st : Status) (n : Nat) (s : State) :
    raise st n s = .next { s with resp := st.code :: List.replicate n 0x00 } := rfl

@[simp] theorem execIllegal_eq (s : State) : execIllegal s = .next { s with resp := [0x03] } := rfl

/-! ## Frames compose -/

theorem State.frameOs_resp (s : State) (r : List Byte) : s.frameOs { s with resp := r } :=
  ⟨⟨rfl, rfl, rfl, rfl⟩, ⟨rfl, rfl⟩, rfl, rfl, rfl, rfl, rfl, rfl⟩

theorem State.frameSd_resp (s : State) (r : List Byte) : s.frameSd { s with resp := r } :=
  ⟨⟨rfl, rfl⟩, ⟨rfl, rfl⟩, rfl, rfl, rfl, rfl, rfl, rfl⟩

theorem State.frameSe_resp (s : State) (r : List Byte) : s.frameSe { s with resp := r } :=
  ⟨⟨rfl, rfl⟩, ⟨rfl, rfl, rfl, rfl⟩, rfl, rfl, rfl, rfl, rfl, rfl⟩

/-! ## The capacity-checked appends -/

theorem osAppend_overflow {bs : List Byte} {s : State} (h : s.params.osCap.val < s.osCur.toNat + bs.length) :
    osAppend bs s = .next { s with resp := [0x01] } := by
  simp [osAppend, h, Status.code]

theorem osAppend_fits {bs : List Byte} {s : State} (h : s.osCur.toNat + bs.length ≤ s.params.osCap.val) :
    osAppend bs s = .next
      { s with
        osm := s.osm.writeSeq s.osCur.toNat bs
        osCur := BitVec.ofNat 16 (s.osCur.toNat + bs.length)
        resp := [0x00] } := by
  simp [osAppend, Nat.not_lt.mpr h, Status.code]

theorem seAppend_overflow {bs : List Byte} {s : State} (h : s.params.seCap.val < s.seLen.toNat + bs.length) :
    seAppend bs s = .next { s with resp := [0x01] } := by
  simp [seAppend, h, Status.code]

theorem seAppend_fits {bs : List Byte} {s : State} (h : s.seLen.toNat + bs.length ≤ s.params.seCap.val) :
    seAppend bs s = .next
      { s with
        sem := s.sem.writeSeq s.seLen.toNat bs
        seLen := BitVec.ofNat 16 (s.seLen.toNat + bs.length)
        resp := [0x00] } := by
  simp [seAppend, Nat.not_lt.mpr h, Status.code]

/-- A length below a capacity is not cut when it is stored in a 16-bit register (R12: no register wraps). -/
theorem toNat_ofNat_of_le_cap {n : Nat} {cap : Fin 65536} (h : n ≤ cap.val) : (BitVec.ofNat 16 n).toNat = n := by
  have := cap.isLt
  simp [BitVec.toNat_ofNat]; omega

/-- Everything `osAppend` does when the bytes fit. -/
theorem osAppend_spec_fits {bs : List Byte} {s : State} (h : s.osCur.toNat + bs.length ≤ s.params.osCap.val) :
    ∃ t, osAppend bs s = .next t ∧ s.frameOs t ∧ s.osAppended bs t :=
  ⟨_, osAppend_fits h, ⟨⟨rfl, rfl, rfl, rfl⟩, ⟨rfl, rfl⟩, rfl, rfl, rfl, rfl, rfl, rfl⟩,
    rfl, toNat_ofNat_of_le_cap h, Memory.holds_writeSeq _ _ _, Memory.sameOutside_writeSeq _ _ _⟩

/-- Everything `osAppend` does when they do not. -/
theorem osAppend_spec_overflow {bs : List Byte} {s : State}
    (h : s.params.osCap.val < s.osCur.toNat + bs.length) :
    ∃ t, osAppend bs s = .next t ∧ s.frameOs t ∧ s.osOverflowed t :=
  ⟨_, osAppend_overflow h, s.frameOs_resp _, rfl, rfl, rfl⟩

/-- Everything `seAppend` does when the bytes fit. -/
theorem seAppend_spec_fits {bs : List Byte} {s : State} (h : s.seLen.toNat + bs.length ≤ s.params.seCap.val) :
    ∃ t, seAppend bs s = .next t ∧ s.frameSe t ∧ s.seAppended bs t :=
  ⟨_, seAppend_fits h, ⟨⟨rfl, rfl⟩, ⟨rfl, rfl, rfl, rfl⟩, rfl, rfl, rfl, rfl, rfl, rfl⟩,
    rfl, toNat_ofNat_of_le_cap h, Memory.holds_writeSeq _ _ _, Memory.sameOutside_writeSeq _ _ _⟩

/-- Everything `seAppend` does when they do not. -/
theorem seAppend_spec_overflow {bs : List Byte} {s : State}
    (h : s.params.seCap.val < s.seLen.toNat + bs.length) :
    ∃ t, seAppend bs s = .next t ∧ s.frameSe t ∧ s.seOverflowed t :=
  ⟨_, seAppend_overflow h, s.frameSe_resp _, rfl, rfl, rfl⟩

/-- An append to the message either overflows and changes nothing, or fits and takes this next state. -/
theorem osAppend_cases {bs : List Byte} {s t : State} (h : osAppend bs s = .next t) :
    (s.params.osCap.val < s.osCur.toNat + bs.length ∧ t = { s with resp := [0x01] }) ∨
    (s.osCur.toNat + bs.length ≤ s.params.osCap.val ∧
      t = { s with
            osm := s.osm.writeSeq s.osCur.toNat bs
            osCur := BitVec.ofNat 16 (s.osCur.toNat + bs.length)
            resp := [0x00] }) := by
  rcases Nat.lt_or_ge s.params.osCap.val (s.osCur.toNat + bs.length) with hc | hc
  · rw [osAppend_overflow hc] at h; cases h; exact .inl ⟨hc, rfl⟩
  · rw [osAppend_fits hc] at h; cases h; exact .inr ⟨hc, rfl⟩

/-- An append to the transmit stream either overflows and changes nothing, or fits and takes this next state. -/
theorem seAppend_cases {bs : List Byte} {s t : State} (h : seAppend bs s = .next t) :
    (s.params.seCap.val < s.seLen.toNat + bs.length ∧ t = { s with resp := [0x01] }) ∨
    (s.seLen.toNat + bs.length ≤ s.params.seCap.val ∧
      t = { s with
            sem := s.sem.writeSeq s.seLen.toNat bs
            seLen := BitVec.ofNat 16 (s.seLen.toNat + bs.length)
            resp := [0x00] }) := by
  rcases Nat.lt_or_ge s.params.seCap.val (s.seLen.toNat + bs.length) with hc | hc
  · rw [seAppend_overflow hc] at h; cases h; exact .inl ⟨hc, rfl⟩
  · rw [seAppend_fits hc] at h; cases h; exact .inr ⟨hc, rfl⟩

/-- The append to the message stops nowhere. -/
theorem osAppend_next (bs : List Byte) (s : State) : ∃ t, osAppend bs s = .next t := by
  unfold osAppend; split <;> exact ⟨_, rfl⟩

/-- The append to the transmit stream stops nowhere. -/
theorem seAppend_next (bs : List Byte) (s : State) : ∃ t, seAppend bs s = .next t := by
  unfold seAppend; split <;> exact ⟨_, rfl⟩

/-! ## The decoder's append -/

theorem sdStore_full {v : Byte} {s : State} (h : s.sdLen.toNat = s.params.sdCap.val) :
    sdStore v s = .next { s with resp := [0x01] } := by
  simp [sdStore, h, Status.code]

theorem sdStore_fits {v : Byte} {s : State} (h : s.sdLen.toNat < s.params.sdCap.val) :
    sdStore v s = .next
      { s with
        sdm := s.sdm.write s.sdLen.toNat v
        sdLen := BitVec.ofNat 16 (s.sdLen.toNat + 1)
        resp := [0x00] } := by
  simp [sdStore, Nat.ne_of_lt h, Nat.not_lt.mpr (Nat.le_of_lt h), Status.code]

theorem sdStore_outside {v : Byte} {s : State} (h : s.params.sdCap.val < s.sdLen.toNat) :
    sdStore v s = .fault .offsetOutsideBuffer := by
  simp [sdStore, Nat.ne_of_gt h, h]

/-- What a next state after `sd_append` is: the discarded state with the byte stored, or the overflow. -/
theorem sdAppend_cases {v : Byte} {s t : State} (h : sdAppend v s = .next t) :
    ((sdDiscard s).sdLen.toNat = s.params.sdCap.val ∧ t = { sdDiscard s with resp := [0x01] }) ∨
    ((sdDiscard s).sdLen.toNat < s.params.sdCap.val ∧
      t = { sdDiscard s with
            sdm := s.sdm.write (sdDiscard s).sdLen.toNat v
            sdLen := BitVec.ofNat 16 ((sdDiscard s).sdLen.toNat + 1)
            resp := [0x00] }) := by
  unfold sdAppend at h
  rcases Nat.lt_trichotomy (sdDiscard s).sdLen.toNat s.params.sdCap.val with hc | hc | hc
  · rw [sdStore_fits (by simpa using hc)] at h; cases h; exact .inr ⟨hc, by simp⟩
  · rw [sdStore_full (by simpa using hc)] at h; cases h; exact .inl ⟨hc, rfl⟩
  · rw [sdStore_outside (by simpa using hc)] at h; cases h

/-- Everything `sd_append` does in a legal state (R151). -/
theorem sdAppend_spec (v : Byte) (s : State) (h : s.sdLegal) :
    ∃ t, sdAppend v s = .next t ∧ s.frameSd t ∧ t.sdEsc = s.sdEsc ∧ s.sdAppends v t := by
  obtain ⟨hlen, hready⟩ := h
  have h0 : s.sdReady = true → 0 < s.sdLen.toNat := fun hr =>
    Nat.pos_of_ne_zero fun h0 => hready hr (BitVec.eq_of_toNat_eq (by simpa using h0))
  unfold sdAppend
  rcases Nat.lt_trichotomy (sdDiscard s).sdLen.toNat s.params.sdCap.val with hc | hc | hc
  · refine ⟨_, sdStore_fits (by simpa using hc), ?_, by simp, ?_⟩
    · simp [State.frameSd, State.sameOs, State.sameSe, State.samePorts]
    · have hn := toNat_ofNat_of_le_cap (cap := s.params.sdCap) (n := (sdDiscard s).sdLen.toNat + 1) (by omega)
      refine ⟨fun hr => ⟨rfl, ?_, by simp, ?_, ?_⟩, fun hr _ => ⟨rfl, ?_, by simp, ?_, ?_⟩, fun hr hfull => ?_⟩
      · simp [hr]
      · simp [hr]
      · intro x hx; simp [hr, Memory.read_write, show x ≠ 0 by omega]
      · simpa [hr] using hn
      · simp [hr]
      · intro x hx; simp [hr, Memory.read_write, show x ≠ s.sdLen.toNat by omega]
      · simp [hr] at hc; omega
  · refine ⟨_, sdStore_full (by simpa using hc), ?_, by simp, ?_⟩
    · simp [State.frameSd, State.sameOs, State.sameSe, State.samePorts]
    · refine ⟨fun hr => ?_, fun hr hlt => ?_, fun hr _ => ⟨rfl, by simp [hr], by simp [hr], by simp⟩⟩
      · simp [hr] at hc; have := h0 hr; omega
      · simp [hr] at hc; omega
  · exfalso
    cases hr : s.sdReady <;> simp [hr] at hc; omega

/-! ## Reading back -/

theorem readBack_outOfRange {m : Memory} {len idx : Half} {s : State} (h : len.toNat ≤ idx.toNat) :
    readBack m len idx s = .next { s with resp := [0x04, 0x00] } := by
  simp [readBack, h, Status.code]

theorem readBack_ok {m : Memory} {len idx : Half} {s : State} {v : Byte} (h : idx.toNat < len.toNat)
    (hv : m.read idx.toNat = some v) : readBack m len idx s = .next { s with resp := [0x00, v] } := by
  simp [readBack, Nat.not_le.mpr h, hv, Status.code]

/-- What a next state after a read-back is. -/
theorem readBack_cases {m : Memory} {len idx : Half} {s t : State} (h : readBack m len idx s = .next t) :
    (len.toNat ≤ idx.toNat ∧ t = { s with resp := [0x04, 0x00] }) ∨
    (idx.toNat < len.toNat ∧ ∃ v, m.read idx.toNat = some v ∧ t = { s with resp := [0x00, v] }) := by
  rcases Nat.lt_or_ge idx.toNat len.toNat with hlt | hge
  · cases hv : m.read idx.toNat with
    | none => simp [readBack, Nat.not_le.mpr hlt, hv] at h
    | some v => rw [readBack_ok hlt hv] at h; cases h; exact .inr ⟨hlt, v, rfl, rfl⟩
  · rw [readBack_outOfRange hge] at h; cases h; exact .inl ⟨hge, rfl⟩

/-- A sound buffer lets every read-back complete (R252: no rule reads an unwritten byte). -/
theorem readBack_next {m : Memory} {cap : Nat} {len idx : Half} (s : State) (h : m.Sound cap len.toNat) :
    ∃ t, readBack m len idx s = .next t := by
  rcases Nat.lt_or_ge idx.toNat len.toNat with hlt | hge
  · obtain ⟨v, hv⟩ := Option.isSome_iff_exists.mp (h.written _ hlt)
    exact ⟨_, readBack_ok hlt hv⟩
  · exact ⟨_, readBack_outOfRange hge⟩

end Sys2Proof.Machine
end

