-- ==== Sys2Proof/Laws/PerInstr.lean ====
section
/-! SUPPORT. What holds of every command, one lemma per constructor: the packet of a well-formed command has exactly
the length that the assembler's length decoding finds in it (spec/30_encoding.md R71, R73). -/

namespace Sys2Proof.Laws

/-- The length a length field of two bytes states (R71). -/
theorem lengthField_encodeSequence {d : List Byte} (h : fitsLength d = true) (cs : List Byte) :
    lengthField (encodeSequence d ++ cs) = some d.length := by
  have hlt : d.length < 65536 := by simpa [fitsLength] using h
  have hv := beValue_beBytes 2 d.length
  simp only [beBytes] at hv
  rw [Nat.mod_eq_of_lt (by omega)] at hv
  simp only [encodeSequence, beBytes, List.cons_append, List.nil_append, lengthField, hv]

theorem encodeSequence_length (d : List Byte) : (encodeSequence d).length = 2 + d.length := by
  simp [encodeSequence]

/-- The packet of `i` is complete: the length R73 decodes from it is its own. -/
def PacketLength.Statement (i : Instr) : Prop :=
  i.wellFormed = true → packetLength? (encode i) = some (encode i).length

theorem PacketLength.osBegin (a t : List Byte) : PacketLength.Statement (.osBegin a t) := by
  intro h
  simp only [Instr.wellFormed, Bool.and_eq_true] at h
  have hdrop : (encodeSequence a ++ encodeSequence t).drop (2 + a.length) = encodeSequence t ++ [] := by
    rw [← encodeSequence_length a]; simp
  simp only [encode, Instr.opcode, encodeOperands, packetLength?, formatOf_code, Opcode.format,
    lengthField_encodeSequence h.1.1, hdrop, lengthField_encodeSequence h.2.1, Option.map_some]
  simp [encodeSequence_length]; omega

theorem PacketLength.osI32 (w : Word) : PacketLength.Statement (.osI32 w) := by
  intro _; simp [encode, Instr.opcode, encodeOperands, packetLength?, Opcode.format]

theorem PacketLength.osF32 (w : Word) : PacketLength.Statement (.osF32 w) := by
  intro _; simp [encode, Instr.opcode, encodeOperands, packetLength?, Opcode.format]

theorem PacketLength.osStr (d : List Byte) : PacketLength.Statement (.osStr d) := by
  intro h
  simp only [Instr.wellFormed, Bool.and_eq_true] at h
  have hl := lengthField_encodeSequence h.1 []
  simp only [List.append_nil] at hl
  simp [encode, Instr.opcode, encodeOperands, packetLength?, Opcode.format, hl, encodeSequence_length]; omega

theorem PacketLength.osBlob (d : List Byte) : PacketLength.Statement (.osBlob d) := by
  intro h
  have hl := lengthField_encodeSequence h []
  simp only [List.append_nil] at hl
  simp [encode, Instr.opcode, encodeOperands, packetLength?, Opcode.format, hl, encodeSequence_length]; omega

theorem PacketLength.osRead (idx : Half) : PacketLength.Statement (.osRead idx) := by
  intro _; simp [encode, Instr.opcode, encodeOperands, packetLength?, Opcode.format]

theorem PacketLength.osStatus : PacketLength.Statement .osStatus := by
  intro _; simp [encode, Instr.opcode, encodeOperands, packetLength?, Opcode.format]

theorem PacketLength.sdPush (b : Byte) : PacketLength.Statement (.sdPush b) := by
  intro _; simp [encode, Instr.opcode, encodeOperands, packetLength?, Opcode.format]

theorem PacketLength.sdClear : PacketLength.Statement .sdClear := by
  intro _; simp [encode, Instr.opcode, encodeOperands, packetLength?, Opcode.format]

theorem PacketLength.sdRead (idx : Half) : PacketLength.Statement (.sdRead idx) := by
  intro _; simp [encode, Instr.opcode, encodeOperands, packetLength?, Opcode.format]

theorem PacketLength.sdStatus : PacketLength.Statement .sdStatus := by
  intro _; simp [encode, Instr.opcode, encodeOperands, packetLength?, Opcode.format]

theorem PacketLength.sePush (b : Byte) : PacketLength.Statement (.sePush b) := by
  intro _; simp [encode, Instr.opcode, encodeOperands, packetLength?, Opcode.format]

theorem PacketLength.seEnd : PacketLength.Statement .seEnd := by
  intro _; simp [encode, Instr.opcode, encodeOperands, packetLength?, Opcode.format]

theorem PacketLength.seClear : PacketLength.Statement .seClear := by
  intro _; simp [encode, Instr.opcode, encodeOperands, packetLength?, Opcode.format]

theorem PacketLength.seRead (idx : Half) : PacketLength.Statement (.seRead idx) := by
  intro _; simp [encode, Instr.opcode, encodeOperands, packetLength?, Opcode.format]

theorem PacketLength.seStatus : PacketLength.Statement .seStatus := by
  intro _; simp [encode, Instr.opcode, encodeOperands, packetLength?, Opcode.format]

end Sys2Proof.Laws
end

