-- ==== Sys2Proof/Laws/Port.lean ====
section
/-! SUPPORT. When the block takes a byte of the command port and when it is the host's turn (spec/30_encoding.md R72,
R74; 70_reset_and_hazards.md R250): the two equations of `step`, and what `acceptByte` and the host's acts do. Later
proofs cite these and do not unfold `step`. -/

namespace Sys2Proof.Machine

theorem isComplete_iff {bs : List Byte} : (decode bs).isComplete = true ↔ isPacket bs := by
  unfold isPacket
  cases decode bs <;> simp [Decoded.isComplete]

theorem readyFor_iff {s : State} {b : Byte} :
    readyFor s b = true ↔ s.resetAsserted = false ∧ (s.resp = [] ∨ ¬ isPacket (s.cmdBuf ++ [b])) := by
  rw [← isComplete_iff]
  simp [readyFor]

/-- Whether the block can take a byte is one of two things. -/
theorem arrives_or_portWaits (s : State) :
    (∃ b rest, s.arrives b rest ∧ (s.resp = [] ∨ ¬ isPacket (s.cmdBuf ++ [b]))) ∨ s.portWaits := by
  by_cases hw : s.portWaits
  · exact .inr hw
  · simp only [State.portWaits, not_or] at hw
    obtain ⟨h1, h2, h3⟩ := hw
    obtain ⟨b, rest, hp⟩ := List.exists_cons_of_ne_nil h2
    refine .inl ⟨b, rest, ⟨hp, by simpa using h1⟩, ?_⟩
    by_contra h
    rw [not_or, not_not] at h
    exact h3 ⟨b, rest, hp, h⟩

/-- The block takes the next byte. -/
theorem step_takes {s : State} {b : Byte} {rest : List Byte} (h : s.arrives b rest)
    (hr : s.resp = [] ∨ ¬ isPacket (s.cmdBuf ++ [b])) : step s = acceptByte b { s with port := rest } := by
  rw [step, nextByte, h.1]
  simp only [readyFor_iff.mpr ⟨h.2, hr⟩, if_true]

/-- The block takes no byte. -/
theorem step_hostTurn {s : State} (h : s.portWaits) : step s = hostTurn s := by
  have hn : nextByte s = none := by
    unfold nextByte
    split
    · rfl
    · rename_i b rest hp
      rw [if_neg]
      intro hr
      obtain ⟨h1, h2⟩ := readyFor_iff.mp hr
      rcases h with h | h | ⟨b', rest', h3, h4, h5⟩
      · rw [h1] at h; cases h
      · rw [hp] at h; cases h
      · rw [hp] at h3; cases h3
        exact h2.elim h4 (· h5)
  rw [step, hn]

/-- Everything a step can be. -/
theorem step_cases (s : State) :
    (∃ b rest, s.arrives b rest ∧ (s.resp = [] ∨ ¬ isPacket (s.cmdBuf ++ [b])) ∧
      step s = acceptByte b { s with port := rest }) ∨ (s.portWaits ∧ step s = hostTurn s) := by
  rcases arrives_or_portWaits s with ⟨b, rest, h, hr⟩ | h
  · exact .inl ⟨b, rest, h, hr, step_takes h hr⟩
  · exact .inr ⟨h, step_hostTurn h⟩

theorem acceptByte_instr {b : Byte} {s : State} {i : Instr} (h : decode (s.cmdBuf ++ [b]) = .instr i) :
    acceptByte b s = exec i { s with cmdBuf := [] } := by
  simp only [acceptByte, h]

theorem acceptByte_illegal {b : Byte} {s : State} {why : Illegal} (h : decode (s.cmdBuf ++ [b]) = .illegal why) :
    acceptByte b s = .next { s with cmdBuf := [], resp := [0x03] } := by
  simp only [acceptByte, h]; rfl

theorem acceptByte_waits {b : Byte} {s : State} (h : ¬ isPacket (s.cmdBuf ++ [b])) :
    acceptByte b s = .next { s with cmdBuf := s.cmdBuf ++ [b] } := by
  unfold acceptByte
  split
  · exact absurd (.inl ⟨_, ‹_›⟩) h
  · exact absurd (.inr ⟨_, ‹_›⟩) h
  · rfl
  · rfl

@[simp] theorem sendByte_eq (b : Byte) (s : State) : sendByte b s = .next { s with port := s.port ++ [b] } := rfl

theorem takeByte_empty {s : State} (h : s.resetAsserted = true ∨ s.resp = []) : takeByte s = .next s := by
  unfold takeByte
  rcases h with h | h
  · rw [if_pos h]
  · rw [h]; split <;> rfl

theorem takeByte_goes {s : State} {b : Byte} {bs : List Byte} (h : s.resetAsserted = false) (hr : s.resp = b :: bs) :
    takeByte s = .next { s with resp := bs, out := s.out ++ [b] } := by
  unfold takeByte
  rw [if_neg (by rw [h]; decide), hr]

theorem hostTurn_silent {s : State} (h : s.host = []) : hostTurn s = .fault .hostSilent := by
  rw [hostTurn, h]

theorem hostTurn_act {s : State} {act : HostAct} {later : List HostAct} (h : s.host = act :: later) :
    hostTurn s = hostStep act { s with host := later } := by
  rw [hostTurn, h]

end Sys2Proof.Machine
end

