-- ==== Sys2Proof/Laws/SlipDecoder.lean ====
section
/-! SUPPORT. The transition table of the SLIP decoder (spec/41_slip_decoder.md R150), one lemma per row. -/

namespace Sys2Proof.Machine

theorem execSdPush_normal {c : Byte} {s : State} (h : s.sdEsc = .normal) : execSdPush c s = sdPushNormal c s := by
  rw [execSdPush, h]

theorem execSdPush_escaped {c : Byte} {s : State} (h : s.sdEsc = .escaped) :
    execSdPush c s = sdPushEscaped c { s with sdEsc := .normal } := by
  rw [execSdPush, h]

/-- R153, an empty frame. -/
theorem sdPushNormal_end_empty {s : State} (h : s.sdLen = 0) : sdPushNormal slipEnd s = .next { s with resp := [0x00] } := by
  rw [sdPushNormal, if_pos rfl, if_neg (fun hne => hne h)]; rfl

/-- R153, a frame that is not empty. -/
theorem sdPushNormal_end_frame {s : State} (h : s.sdLen ≠ 0) :
    sdPushNormal slipEnd s = .next { s with sdReady := true, resp := [0x00] } := by
  rw [sdPushNormal, if_pos rfl, if_pos h]; rfl

/-- R154. -/
theorem sdPushNormal_esc (s : State) : sdPushNormal slipEsc s = .next { s with sdEsc := .escaped, resp := [0x00] } := rfl

/-- R155. -/
theorem sdPushNormal_data {c : Byte} {s : State} (h : c ≠ slipEnd) (h' : c ≠ slipEsc) :
    sdPushNormal c s = sdAppend c s := by
  rw [sdPushNormal, if_neg h, if_neg h']

/-- R156. -/
theorem sdPushEscaped_escEnd (s : State) : sdPushEscaped slipEscEnd s = sdAppend slipEnd s := rfl

/-- R157. -/
theorem sdPushEscaped_escEsc (s : State) : sdPushEscaped slipEscEsc s = sdAppend slipEsc s := rfl

/-- R158. -/
theorem sdPushEscaped_other {c : Byte} {s : State} (h : c ≠ slipEscEnd) (h' : c ≠ slipEscEsc) :
    sdPushEscaped c s = .next { s with resp := [0x02] } := by
  rw [sdPushEscaped, if_neg h, if_neg h']; rfl

end Sys2Proof.Machine
end

