-- ==== Sys2Proof/Tests/Slice0.lean ====
section
/-! SUPPORT. Tests of the model against the spec's own words: the checks of `wellFormed`, the packets of
spec/30_encoding.md, the vectors of spec/95_test_vectors.md (named by their ids) one step at a time, and for every
obligation with hypotheses a state and operands that meet them, each clause at a value where it begins or ends. -/

namespace Sys2Proof.Tests

open Sys2Proof Sys2Proof.Machine

/-! ## Helpers -/

/-- The command completes, with this response and a state that passes `p`. -/
def ends (r : Result) (resp : List Byte) (p : State → Bool) : Bool :=
  match r with
  | .next t => t.resp == resp && p t
  | .fault _ => false
  | .refused _ => false

theorem ends_next {r : Result} {resp : List Byte} (h : ends r resp (fun _ => true) = true) :
    ∃ t, r = .next t ∧ t.resp = resp := by
  cases r with
  | next t => exact ⟨t, rfl, by simpa [ends] using h⟩
  | fault _ => simp [ends] at h
  | refused _ => simp [ends] at h

/-- The command completes. -/
def completes (r : Result) : Bool :=
  match r with
  | .next _ => true
  | .fault _ => false
  | .refused _ => false

theorem completes_next {r : Result} (h : completes r = true) : ∃ t, r = .next t := by
  cases r with
  | next t => exact ⟨t, rfl⟩
  | fault _ => simp [completes] at h
  | refused _ => simp [completes] at h

/-- The first `n` bytes of a buffer. -/
def bytes (m : Memory) (n : Nat) : List (Option Byte) := (List.range n).map m.read

/-- A buffer that holds exactly these bytes from offset 0 on. -/
def holding (bs : List Byte) : Memory := Memory.writeSeq [] 0 bs

/-- The vectors' machine: `OS_CAP = 64`, `SD_CAP = 4`, `SE_CAP = 8`, right after reset. -/
def small : State := State.resetFor { osCap := 64, sdCap := 4, seCap := 8 }

/-- With other capacities. -/
def capped (os sd se : Fin 65536) : State := State.resetFor { osCap := os, sdCap := sd, seCap := se }

/-- `OSM` after vector OS-1. -/
def fooBytes : List Byte := [0x2F, 0x66, 0x6F, 0x6F, 0x00, 0x00, 0x00, 0x00, 0x2C, 0x69, 0x00, 0x00]

/-- The state after vector OS-1. -/
def afterFoo : State := { small with osCur := 12, osm := holding fooBytes }

/-- The state after vector SD-2: the frame `[01 02]` is ready. -/
def afterSd2 : State := { small with sdLen := 2, sdReady := true, sdm := holding [0x01, 0x02] }

/-- `b` is next on the command port, and `p` has been taken before it. -/
def sending (s : State) (p : List Byte) (b : Byte) : State := { s with cmdBuf := p, port := [b] }

/-- The length of a long operand, without writing the operand out. -/
theorem fitsLength_replicate (n : Nat) (b : Byte) : fitsLength (List.replicate n b) = decide (n < 65536) := by
  rw [fitsLength, List.length_replicate]

theorem too_long : decide (65536 < 65536) = false := rfl

/-! ## WellFormed refuses each ill-formed term (R71, R77) -/

theorem test_wf_begin_ok : (Instr.osBegin [0x2F] [0x69]).wellFormed = true := by decide
theorem test_wf_begin_nul_in_address : (Instr.osBegin [0x2F, 0x00] []).wellFormed = false := by decide
theorem test_wf_begin_nul_in_tags : (Instr.osBegin [0x2F] [0x00]).wellFormed = false := by decide
theorem test_wf_begin_address_too_long : (Instr.osBegin (List.replicate 65536 0x2F) []).wellFormed = false := by
  simp only [Instr.wellFormed, fitsLength_replicate, too_long, Bool.false_and]
theorem test_wf_begin_tags_too_long : (Instr.osBegin [] (List.replicate 65536 0x69)).wellFormed = false := by
  simp only [Instr.wellFormed, fitsLength_replicate, too_long, Bool.false_and, Bool.and_false]
theorem test_wf_str_nul : (Instr.osStr [0x61, 0x00]).wellFormed = false := by decide
theorem test_wf_str_too_long : (Instr.osStr (List.replicate 65536 0x61)).wellFormed = false := by
  simp only [Instr.wellFormed, fitsLength_replicate, too_long, Bool.false_and]
theorem test_wf_blob_longest : (Instr.osBlob (List.replicate 65535 0x00)).wellFormed = true := by
  simp only [Instr.wellFormed, fitsLength_replicate, Nat.reduceLT, decide_true]
theorem test_wf_blob_nul_ok : (Instr.osBlob [0x00]).wellFormed = true := by decide
theorem test_wf_blob_too_long : (Instr.osBlob (List.replicate 65536 0x00)).wellFormed = false := by
  simp only [Instr.wellFormed, fitsLength_replicate, too_long]

/-! ## Packets written out from R71 and R75, one for each command (R80, R82, and the vectors) -/

theorem test_decode_os_begin : decode [0x10, 0x00, 0x04, 0x2F, 0x66, 0x6F, 0x6F, 0x00, 0x01, 0x69] =
    .instr (.osBegin [0x2F, 0x66, 0x6F, 0x6F] [0x69]) := by decide
theorem test_decode_os_i32 : decode [0x11, 0x12, 0x34, 0x56, 0x78] = .instr (.osI32 0x12345678) := by decide
theorem test_decode_os_f32 : decode [0x12, 0x3F, 0x80, 0x00, 0x00] = .instr (.osF32 0x3F800000) := by decide
theorem test_decode_os_str : decode [0x13, 0x00, 0x02, 0x68, 0x69] = .instr (.osStr [0x68, 0x69]) := by decide
theorem test_decode_os_blob : decode [0x14, 0x00, 0x03, 0x01, 0x02, 0x03] = .instr (.osBlob [0x01, 0x02, 0x03]) := by
  decide
theorem test_decode_os_read : decode [0x1E, 0x01, 0x05] = .instr (.osRead 0x0105) := by decide
theorem test_decode_os_status : decode [0x1F] = .instr .osStatus := by decide
theorem test_decode_sd_push : decode [0x20, 0xC0] = .instr (.sdPush 0xC0) := by decide
theorem test_decode_sd_clear : decode [0x21] = .instr .sdClear := by decide
theorem test_decode_sd_read : decode [0x2E, 0xFF, 0xFE] = .instr (.sdRead 0xFFFE) := by decide
theorem test_decode_sd_status : decode [0x2F] = .instr .sdStatus := by decide
theorem test_decode_se_push : decode [0x30, 0xDB] = .instr (.sePush 0xDB) := by decide
theorem test_decode_se_end : decode [0x31] = .instr .seEnd := by decide
theorem test_decode_se_clear : decode [0x32] = .instr .seClear := by decide
theorem test_decode_se_read : decode [0x3E, 0x00, 0x01] = .instr (.seRead 1) := by decide
theorem test_decode_se_status : decode [0x3F] = .instr .seStatus := by decide

/-- EN-2: the ends of the ranges of R76. -/
theorem test_decode_unassigned : ([0x00, 0x0F, 0x15, 0x1D, 0x22, 0x2D, 0x33, 0x3D, 0x40, 0xFF] : List Byte).all
    (fun op => decode [op] == .illegal .unassignedOpcode) = true := by decide
/-- OS-18, OS-19, EN-4: a string operand that holds 00. -/
theorem test_decode_nul : [[0x10, 0x00, 0x02, 0x2F, 0x00, 0x00, 0x00], [0x13, 0x00, 0x02, 0x61, 0x00],
    ([0x10, 0x00, 0x01, 0x2F, 0x00, 0x01, 0x00] : List Byte)].all
    (fun p => decode p == .illegal .nulInString) = true := by decide
/-- EN-5, R72: too few bytes. -/
theorem test_decode_incomplete : [[], [0x11, 0x00, 0x00], [0x13, 0x00], [0x13, 0x00, 0x01],
    ([0x10, 0x00, 0x01, 0x2F, 0x00] : List Byte)].all (fun p => decode p == .incomplete) = true := by decide
/-- The packet of a command is the packet the assembler's table shows (R80). -/
theorem test_encode_begin : encode (.osBegin [0x2F, 0x66, 0x6F, 0x6F] [0x69]) =
    [0x10, 0x00, 0x04, 0x2F, 0x66, 0x6F, 0x6F, 0x00, 0x01, 0x69] := by decide
theorem test_encode_read : encode (.osRead 0x0105) = [0x1E, 0x01, 0x05] := by decide
/-- Words as the opcode table numbers them: the opcode is in bits 7:0, a later byte above it. -/
theorem test_table_word_i32 : decodeTableWord 40 0x2A00000011 = some (.osI32 42) := by decide
theorem test_table_word_short : decodeTableWord 24 0x050013 = none ∧
    decodeTableWord 8 0x13 = some (.osStr []) := by decide

/-! ## Unit OS (95_test_vectors.md 2.1) -/

/-- OS-1. -/
theorem test_os1_begin : ends (exec (.osBegin [0x2F, 0x66, 0x6F, 0x6F] [0x69]) small) [0x00]
    (fun t => t.osCur == 12 && bytes t.osm 12 == fooBytes.map some) = true := by decide
/-- OS-17: a failed `OS.BEGIN` still discards the message. -/
theorem test_os17_begin_overflow :
    ends (exec (.osBegin [0x2F, 0x66, 0x6F, 0x6F] [0x69]) { capped 11 4 8 with osCur := 11 }) [0x01]
    (fun t => t.osCur == 0 && t.osm == []) = true := by decide
/-- OS-2. -/
theorem test_os2_i32 : ends (exec (.osI32 42) afterFoo) [0x00]
    (fun t => t.osCur == 16 && bytes t.osm 16 == (fooBytes ++ [0x00, 0x00, 0x00, 0x2A]).map some) = true := by decide
/-- OS-20. -/
theorem test_os20_i32_overflow : ends (exec (.osI32 1) { capped 16 4 8 with osCur := 13 }) [0x01]
    (fun t => t.osCur == 13 && t.osm == []) = true := by decide
/-- OS-4. -/
theorem test_os4_f32 : ends (exec (.osF32 0x3F800000) { small with osCur := 16 }) [0x00]
    (fun t => t.osCur == 20 && [16, 17, 18, 19].map t.osm.read == [some 0x3F, some 0x80, some 0x00, some 0x00]) = true := by
  decide
/-- OS-10: the padding aligns the absolute cursor. -/
theorem test_os10_str_unaligned : ends (exec (.osStr [0x78]) { small with osCur := 27 }) [0x00]
    (fun t => t.osCur == 32 && [26, 27, 28, 31, 32].map t.osm.read ==
      [none, some 0x78, some 0x00, some 0x00, none]) = true := by decide
/-- OS-11: the padding counts in the check. -/
theorem test_os11_str_overflow : ends (exec (.osStr [0x78]) { capped 30 4 8 with osCur := 27 }) [0x01]
    (fun t => t.osCur == 27 && t.osm == []) = true := by decide
/-- OS-9. -/
theorem test_os9_blob : ends (exec (.osBlob [0x01, 0x02, 0x03]) { small with osCur := 20 }) [0x00]
    (fun t => t.osCur == 27 && (List.range 7).map (fun k => t.osm.read (20 + k)) ==
      [some 0x00, some 0x00, some 0x00, some 0x03, some 0x01, some 0x02, some 0x03]) = true := by decide
/-- OS-28: a blob may hold 00. -/
theorem test_os28_blob_nul : ends (exec (.osBlob [0x00, 0x00]) small) [0x00] (fun t => t.osCur == 6) = true := by decide
/-- OS-22. -/
theorem test_os22_read : ends (exec (.osRead 8) afterFoo) [0x00, 0x2C] (fun t => t.osCur == 12) = true := by decide
theorem test_os22_read_beyond : ends (exec (.osRead 12) afterFoo) [0x04, 0x00] (fun t => t.osCur == 12) = true := by
  decide
/-- OS-23, and the high byte of the cursor. -/
theorem test_os23_status : ends (exec .osStatus { small with osCur := 16 }) [0x00, 0x00, 0x10] (fun _ => true) = true := by
  decide
theorem test_os_status_high : ends (exec .osStatus { small with osCur := 0x1234 }) [0x00, 0x12, 0x34] (fun _ => true) =
    true := by decide

/-! ## Unit SE (2.2) -/

/-- SE-1. -/
theorem test_se1_push_end : ends (exec (.sePush 0xC0) small) [0x00]
    (fun t => t.seLen == 2 && bytes t.sem 3 == [some 0xDB, some 0xDC, none]) = true := by decide
/-- SE-6: neither half of the escape is written. -/
theorem test_se6_push_overflow : ends (exec (.sePush 0xC0) { capped 64 4 3 with seLen := 2 }) [0x01]
    (fun t => t.seLen == 2 && t.sem == []) = true := by decide
/-- SE-4. -/
theorem test_se4_end : ends (exec .seEnd { small with seLen := 1, sem := holding [0x01] }) [0x00]
    (fun t => t.seLen == 2 && bytes t.sem 2 == [some 0x01, some 0xC0]) = true := by decide
/-- SE-7. -/
theorem test_se7_end_overflow : ends (exec .seEnd { capped 64 4 3 with seLen := 3 }) [0x01]
    (fun t => t.seLen == 3 && t.sem == []) = true := by decide
/-- SE-9. -/
theorem test_se9_clear : ends (exec .seClear { small with seLen := 5 }) [0x00] (fun t => t.seLen == 0) = true := by decide
/-- SE-10. -/
theorem test_se10_read : ends (exec (.seRead 1) { small with seLen := 2, sem := holding [0xDB, 0xDD] }) [0x00, 0xDD]
    (fun t => t.seLen == 2) = true := by decide
theorem test_se10_read_beyond : ends (exec (.seRead 2) { small with seLen := 2, sem := holding [0xDB, 0xDD] })
    [0x04, 0x00] (fun t => t.seLen == 2) = true := by decide
/-- SE-11. -/
theorem test_se11_status : ends (exec .seStatus { small with seLen := 2 }) [0x00, 0x00, 0x02] (fun _ => true) = true := by
  decide

/-! ## Unit SD (2.3) -/

/-- SD-3: new data discards the held frame. -/
theorem test_sd3_push_discards : ends (exec (.sdPush 0x03) afterSd2) [0x00]
    (fun t => t.sdEsc == .normal && t.sdReady == false && t.sdLen == 1 && t.sdm.read 0 == some 0x03) = true := by decide
/-- SD-12: an overflowing escaped append is back in `Normal`. -/
theorem test_sd12_push_overflow_leaves_escaped :
    ends (exec (.sdPush 0xDC) { capped 64 2 8 with sdEsc := .escaped, sdLen := 2, sdm := holding [0x01, 0x02] }) [0x01]
    (fun t => t.sdEsc == .normal && t.sdReady == false && t.sdLen == 2 && t.sdm == holding [0x01, 0x02]) = true := by
  decide
/-- SD-17. -/
theorem test_sd17_clear : ends (exec .sdClear afterSd2) [0x00] (fun t => t.sdLen == 0 && t.sdReady == false) = true := by
  decide
/-- SD-16: the clear does not leave `Escaped`. -/
theorem test_sd16_clear_keeps_escape : ends (exec .sdClear { small with sdEsc := .escaped }) [0x00]
    (fun t => t.sdEsc == .escaped) = true := by decide
/-- SD-18. -/
theorem test_sd18_read : ends (exec (.sdRead 1) afterSd2) [0x00, 0x02] (fun t => t.sdReady && t.sdLen == 2) = true := by
  decide
theorem test_sd18_read_beyond : ends (exec (.sdRead 2) afterSd2) [0x04, 0x00] (fun t => t.sdReady) = true := by decide
/-- SD-14: bit 0 is `SD_READY`, bit 1 is `SD_ESC`. -/
theorem test_sd14_status : ends (exec .sdStatus { afterSd2 with sdEsc := .escaped }) [0x00, 0x03, 0x00, 0x02]
    (fun t => t.sdEsc == .escaped) = true := by decide
theorem test_sd16_status : ends (exec .sdStatus { small with sdEsc := .escaped }) [0x00, 0x02, 0x00, 0x00]
    (fun _ => true) = true := by decide

/-! ## Steps -/

/-- EN-1: an illegal packet responds `[03]`, the packet consumed. -/
theorem test_en1_illegal : ends (step (sending afterFoo [] 0x40)) [0x03]
    (fun t => t.osCur == 12 && t.cmdBuf == [] && t.port == []) = true := by decide
/-- OS-18: the illegal `OS.BEGIN` does not even reset the cursor. -/
theorem test_os18_illegal_begin : ends (step (sending afterFoo [0x10, 0x00, 0x02, 0x2F, 0x00, 0x00] 0x00)) [0x03]
    (fun t => t == { afterFoo with resp := [0x03] }) = true := by decide
/-- EN-6: a string of length 0 is a complete 3-byte packet. -/
theorem test_en6_str_empty : ends (step (sending small [0x13, 0x00] 0x00)) [0x00]
    (fun t => t.osCur == 4 && t.cmdBuf == []) = true := by decide
/-- R250: a release of reset discards a partial packet, a response and the registers. -/
theorem test_reset_release : ends
    (step { afterSd2 with resetAsserted := true, cmdBuf := [0x11, 0x00], resp := [0x00], host := [.resetLine false] }) []
    (fun t => t == { small with sdm := [] }) = true := by decide
/-- R74, U7: the last byte of a packet waits while the response does, and is taken as soon as that has gone out. -/
theorem test_packet_waits_for_response :
    ends (step { small with cmdBuf := [0x20], port := [0x09], resp := [0x00], host := [.take] }) []
      (fun t => t.sdLen == 0 && t.port == [0x09] && t.out == [0x00]) = true ∧
    ends (step { small with cmdBuf := [0x20], port := [0x09] }) [0x00] (fun t => t.sdLen == 1 && t.port == []) = true := by
  decide
/-- The word placed on the port runs in the next step. -/
theorem test_fetch_word : ends (step (State.reset.withFetchWord 16 0x0920)) [0x00]
    (fun t => t.sdLen == 1 && t.sdm.read 0 == some 0x09 && t.port == []) = true := by decide

/-! ## The assembler (R80, R81) -/

theorem test_asm_begin : assemblePackets "OS.BEGIN \"/foo\", \"i\"".toList =
    some [[0x10, 0x00, 0x04, 0x2F, 0x66, 0x6F, 0x6F, 0x00, 0x01, 0x69]] := by decide
theorem test_asm_numbers : assemblePackets "OS.I32 -1".toList = some [[0x11, 0xFF, 0xFF, 0xFF, 0xFF]] ∧
    assemblePackets "OS.F32 0x3F800000".toList = some [[0x12, 0x3F, 0x80, 0x00, 0x00]] ∧
    assemblePackets "SD.READ 258".toList = some [[0x2E, 0x01, 0x02]] ∧
    assemblePackets "SD.PUSH 256".toList = none := by decide
theorem test_asm_blob : assemblePackets "OS.BLOB [01 02 03]".toList = some [[0x14, 0x00, 0x03, 0x01, 0x02, 0x03]] := by
  decide
theorem test_asm_frame : assemble "SE.FRAME 0x01, 0xC0".toList = some [.sePush 0x01, .sePush 0xC0, .seEnd] := by decide
/-- P5. -/
theorem test_asm_msg : assemble "OS.MSG \"/a\", \"ifsb\", 1, 0x40000000, \"ok\", [AA BB]".toList =
    some [.osBegin [0x2F, 0x61] [0x69, 0x66, 0x73, 0x62], .osI32 1, .osF32 0x40000000, .osStr [0x6F, 0x6B],
      .osBlob [0xAA, 0xBB]] := by decide
/-- R81: a count that differs, and a tag that is none of the four. -/
theorem test_asm_msg_rejected : assemble "OS.MSG \"/a\", \"ii\", 1".toList = none ∧
    assemble "OS.MSG \"/a\", \"T\", 1".toList = none := by decide

/-! ## Witnesses: what the hypotheses of each obligation ask for exists -/

/-- One command of each kind. -/
def oneOfEach : List Instr :=
  [.osBegin [0x2F] [0x69], .osI32 1, .osF32 1, .osStr [0x61], .osBlob [0x00], .osRead 0, .osStatus] ++
    [.sdPush 0x01, .sdClear, .sdRead 0, .sdStatus] ++ [.sePush 0x01, .seEnd, .seClear, .seRead 0, .seStatus]

/-- A state of the invariant in which all three buffers are full, a frame is ready, a packet is on its way and a
response waits. -/
def full : State :=
  { capped 1 1 1 with
    osCur := 1, osm := [(0, 0x2F)], sdLen := 1, sdReady := true, sdm := [(0, 0x05)], seLen := 1, sem := [(0, 0xC0)]
    cmdBuf := [0x11, 0x00], resp := [0x00], host := [.take] }

/-- The same with `SD.PUSH 01` complete but for its last byte, which waits on the command port for the response to go
out; the host sends another packet before it takes that response. -/
def stalled : State := { full with cmdBuf := [0x20], port := [0x01], host := [.send 0x2F, .take] }

theorem sound_one (v : Byte) : Memory.Sound [(0, v)] 1 1 where
  canonical := rfl
  inside a h := by simp only [Memory.read]; rw [if_neg (by omega)]
  fits := Nat.le_refl 1
  written a h := by simp only [Memory.read]; rw [if_pos (by omega)]; rfl

theorem full_inv : full.Inv where
  os := sound_one _
  sd := sound_one _
  se := sound_one _
  ready _ := by decide
  assembling := by decide
  response := ⟨[], .status .ok⟩

theorem stalled_inv : stalled.Inv where
  os := sound_one _
  sd := sound_one _
  se := sound_one _
  ready _ := by decide
  assembling := by decide
  response := ⟨[], .status .ok⟩

theorem small_inv : small.Inv where
  os := Memory.sound_nil _
  sd := Memory.sound_nil _
  se := Memory.sound_nil _
  ready h := by simp [small, State.resetFor] at h
  assembling := by decide
  response := ⟨[0x00], .status .ok⟩

/-- The longest operand is met by `test_wf_blob_longest`. -/
theorem witness_DecodeOfEncodeIsCommand : (Instr.osBegin [] []).wellFormed = true ∧
    (Instr.osBegin [0xFF] [0x2C]).wellFormed = true ∧ ∀ i ∈ oneOfEach, i.wellFormed = true := by decide

theorem witness_EveryPacketHasOneMeaning : decode [0x10, 0x00, 0x00, 0x00, 0x01, 0x69] = .instr (.osBegin [] [0x69]) := by
  decide

theorem witness_StreamSplitsIntoPackets :
    ([0x1F, 0x40, 0x13, 0x00] : List Byte) = [[0x1F], [0x40]].flatten ++ [0x13, 0x00] ∧
    (∀ p ∈ ([[0x1F], [0x40]] : List (List Byte)), isPacket p) ∧ decode [0x13, 0x00] = .incomplete := by
  refine ⟨rfl, ?_, rfl⟩
  intro p hp
  simp only [List.mem_cons, List.not_mem_nil, or_false] at hp
  rcases hp with rfl | rfl
  · exact .inl ⟨_, rfl⟩
  · exact .inr ⟨_, rfl⟩

theorem witness_UnassignedOpcodesAreIllegal : (sending afterFoo [] 0x40).arrives 0x40 [] ∧
    (sending afterFoo [] 0x40).cmdBuf = [] ∧ (sending afterFoo [] 0x40).resp = [] ∧
    decode [0x40] = .illegal .unassignedOpcode := ⟨⟨rfl, rfl⟩, rfl, rfl, rfl⟩

theorem witness_longest_operand (b : Byte) : (List.replicate 65535 b).length < 65536 := by
  rw [List.length_replicate]; exact Nat.lt_succ_self 65535

/-- Clause by clause: a NUL in the address, in the tags, in a string; a blob; an index at the
length; an illegal packet arriving. -/
theorem witness_StringOperandsWithNulAreIllegal :
    ((0x00 : Byte) ∈ ([0x00] : List Byte) ∧ (0x00 : Byte) ∉ ([0x69] : List Byte)) ∧
    ([0x00] : List Byte).length < 65536 ∧ afterFoo.osCur ≤ 12 ∧ afterSd2.sdLen ≤ 2 ∧ small.seLen ≤ 0 ∧
    ((sending afterFoo [0x13, 0x00, 0x01] 0x00).arrives 0x00 [] ∧ (sending afterFoo [0x13, 0x00, 0x01] 0x00).resp = [] ∧
      decode ([0x13, 0x00, 0x01] ++ [0x00]) = .illegal .nulInString) :=
  ⟨by decide, by decide, by decide, by decide, by decide, ⟨rfl, rfl⟩, rfl, by decide⟩

theorem witness_StepRunsDecodedCommand : (sending afterFoo [0x1E, 0x00] 0x08).arrives 0x08 [] ∧
    (sending afterFoo [0x1E, 0x00] 0x08).resp = [] ∧
    decode ((sending afterFoo [0x1E, 0x00] 0x08).cmdBuf ++ [0x08]) = .instr (.osRead 8) := ⟨⟨rfl, rfl⟩, rfl, rfl⟩

/-- The first byte of a packet, and the last byte but one of an `OS.BEGIN`; the same with a response waiting; a host with
no act left. -/
theorem witness_IncompletePacketWaits :
    ((sending small [] 0x11).arrives 0x11 [] ∧ decode ([] ++ [0x11]) = .incomplete) ∧
    ((sending small [0x10, 0x00, 0x01, 0x2F, 0x00] 0x01).arrives 0x01 [] ∧
      decode ([0x10, 0x00, 0x01, 0x2F, 0x00] ++ [0x01]) = .incomplete) ∧
    ((sending full [] 0x20).arrives 0x20 [] ∧ full.resp ≠ [] ∧
      decode ([] ++ [0x20]) = .incomplete) ∧ small.port = [] ∧ small.host = [] :=
  ⟨⟨⟨rfl, rfl⟩, by decide⟩, ⟨⟨rfl, rfl⟩, by decide⟩, ⟨⟨rfl, rfl⟩, by decide, by decide⟩, rfl, rfl⟩

theorem witness_CommandExecutesAtLastByte : (Instr.osI32 42).wellFormed = true ∧
    (let s := { afterFoo with port := encode (.osI32 42) ++ [0x1F] }
     s.cmdBuf = [] ∧ s.resp = [] ∧ s.resetAsserted = false ∧ s.port = encode (.osI32 42) ++ [0x1F]) ∧
    (encode (.osI32 42)).length = 5 :=
  ⟨rfl, ⟨rfl, rfl, rfl, rfl⟩, by decide⟩

theorem witness_PlacedWordRunsNext : decodeTableWord 8 0x31 = some .seEnd ∧
    decodeTableWord 40 0xFFFFFFFF12 = some (.osF32 0xFFFFFFFF) := by decide

theorem stalled_waits : stalled.portWaits := .inr (.inr ⟨0x01, [], rfl, by decide, .inl ⟨_, rfl⟩⟩)

/-- With an act of the host to come, and with none. -/
theorem witness_CommandWaitsForPendingResponse : stalled.arrives 0x01 [] ∧ stalled.resp ≠ [] ∧
    isPacket (stalled.cmdBuf ++ [0x01]) ∧ stalled.host ≠ [] ∧ ({ stalled with host := [] } : State).host = [] :=
  ⟨⟨rfl, rfl⟩, by decide, .inl ⟨_, rfl⟩, by decide, rfl⟩

/-- A waiting response and a byte sent before it is taken; no response and no act; an illegal packet that waits. -/
theorem witness_PendingCommandExecutesOnceResponseIsTaken :
    (stalled.arrives 0x01 [] ∧ stalled.host = [.send 0x2F, .take] ++ [] ∧
      (∀ level, HostAct.resetLine level ∉ [HostAct.send 0x2F, .take]) ∧
      [HostAct.send 0x2F, .take].count .take = stalled.resp.length ∧
      [HostAct.send 0x2F, .take].getLast? = some .take ∧ decode (stalled.cmdBuf ++ [0x01]) = .instr (.sdPush 0x01)) ∧
    (let s := sending small [] 0x1F; s.arrives 0x1F [] ∧ s.host = [] ++ [] ∧
      ([] : List HostAct).count .take = s.resp.length ∧ decode (s.cmdBuf ++ [0x1F]) = .instr .osStatus) ∧
    (let s := sending { stalled with host := [.take] } [] 0x40; s.arrives 0x40 [] ∧ s.host = [.take] ++ [] ∧
      [HostAct.take].count .take = s.resp.length ∧ [HostAct.take].getLast? = some .take ∧
      decode (s.cmdBuf ++ [0x40]) = .illegal .unassignedOpcode) :=
  ⟨⟨⟨rfl, rfl⟩, rfl, fun level h => by cases level <;> simp at h, rfl, rfl, rfl⟩, ⟨⟨rfl, rfl⟩, rfl, rfl, rfl⟩,
    ⟨rfl, rfl⟩, rfl, rfl, rfl, rfl⟩

/-- A byte behind one that waits, on an empty port, and under reset. -/
theorem witness_SentByteQueuesOnPort : (stalled.portWaits ∧ stalled.host = .send 0x2F :: [.take]) ∧
    (let s := { small with host := [.send 0x1F] }; s.portWaits ∧ s.host = .send 0x1F :: []) ∧
    (let s := { small with host := [.send 0x1F], port := [0x00], resetAsserted := true };
      s.portWaits ∧ s.host = .send 0x1F :: []) :=
  ⟨⟨stalled_waits, rfl⟩, ⟨.inr (.inl rfl), rfl⟩, ⟨.inl rfl, rfl⟩⟩

/-- With the port empty, and with a byte that waits there. -/
theorem witness_ResponseBytesGoOutInOrder : (full.portWaits ∧ full.host = .take :: [] ∧ full.resetAsserted = false ∧
    full.resp = 0x00 :: []) ∧ ({ stalled with host := [.take] } : State).portWaits :=
  ⟨⟨.inr (.inl rfl), rfl, rfl, rfl⟩, .inr (.inr ⟨0x01, [], rfl, by decide, .inl ⟨_, rfl⟩⟩)⟩

/-- Every kind of command completes, and a read does so with a status that is not `OK` too. -/
theorem witness_ResponseLayoutByOpcode :
    (∀ i ∈ oneOfEach, ∃ t, exec i { afterFoo with sdLen := 1, sdm := holding [0x01], seLen := 1, sem := holding [0x01] } =
      .next t) ∧ ∃ t, exec (.osRead 12) afterFoo = .next t ∧ t.resp = [0x04, 0x00] := by
  refine ⟨fun i hi => completes_next ?_, ends_next (by decide)⟩
  exact List.all_eq_true.mp (by decide : (oneOfEach.all fun i => completes (exec i
    { afterFoo with sdLen := 1, sdm := holding [0x01], seLen := 1, sem := holding [0x01] })) = true) i hi

/-- One response of each status. -/
theorem witness_StatusCodesByCommand :
    (∃ t, exec .seEnd small = .next t ∧ t.resp = [0x00]) ∧
    (∃ t, exec .seEnd (capped 0 0 0) = .next t ∧ t.resp = [0x01]) ∧
    (∃ t, exec (.sdPush 0xDB) { small with sdEsc := .escaped } = .next t ∧ t.resp = [0x02]) ∧
    ∃ t, exec (.seRead 0) small = .next t ∧ t.resp = [0x04, 0x00] :=
  ⟨ends_next (by decide), ends_next (by decide), ends_next (by decide), ends_next (by decide)⟩

/-- The first and the last of the zero bytes. -/
theorem witness_OscStringAlignsCursor : ([0x78] : List Byte).length ≤ 1 ∧ 1 < (oscStr [0x78] 27).length ∧
    ([0x78] : List Byte).length ≤ 4 ∧ 4 < (oscStr [0x78] 27).length := by decide

/-- The header of vector OS-1 at the two sides of its check: `OS_CAP` 12 and 11 (W5). -/
theorem witness_OsBeginWritesHeader :
    oscStr [0x2F, 0x66, 0x6F, 0x6F] 0 = [0x2F, 0x66, 0x6F, 0x6F, 0x00, 0x00, 0x00, 0x00] ∧
    oscStr (0x2C :: [0x69]) 8 = [0x2C, 0x69, 0x00, 0x00] ∧
    8 + 4 ≤ (capped 12 4 8).params.osCap.val ∧ (capped 11 4 8).params.osCap.val < 8 + 4 := by decide

theorem witness_OsI32AppendsBigEndian :
    (let s := { capped 16 4 8 with osCur := 12 }; s.osCur.toNat + 4 ≤ s.params.osCap.val) ∧
    (let s := { capped 16 4 8 with osCur := 13 }; s.params.osCap.val < s.osCur.toNat + 4) := by decide

theorem witness_OsF32AppendsPattern :
    (let s := { capped 16 4 8 with osCur := 12 }; s.osCur.toNat + 4 ≤ s.params.osCap.val) ∧
    (let s := { capped 16 4 8 with osCur := 13 }; s.params.osCap.val < s.osCur.toNat + 4) := by decide

/-- The corner case of R106: at the cursor 27 the string `x` needs 5 bytes. -/
theorem witness_OsStrAppendsPadded : oscStr [0x78] 27 = [0x78, 0x00, 0x00, 0x00, 0x00] ∧
    27 + 5 ≤ (capped 32 4 8).params.osCap.val ∧ (capped 31 4 8).params.osCap.val < 27 + 5 := by decide

theorem witness_OsBlobAppendsUnpadded : ([0x00, 0xFF] : List Byte).length < 65536 ∧
    (let s := { capped 10 4 8 with osCur := 4 }; s.osCur.toNat + 4 + 2 ≤ s.params.osCap.val) ∧
    (let s := { capped 9 4 8 with osCur := 4 }; s.params.osCap.val < s.osCur.toNat + 4 + 2) := by decide

theorem witness_OsReadReturnsByte : afterFoo.osCur.toNat ≤ (12 : Half).toNat ∧
    ((11 : Half).toNat < afterFoo.osCur.toNat ∧ afterFoo.osm.read (11 : Half).toNat = some 0x00) := by decide

/-- Each command with success and with failure, from an unaligned cursor where it has one. -/
theorem witness_CursorAlignmentByCommand :
    (∃ u, exec (.osBegin [] []) small = .next u ∧ u.resp = [0x00]) ∧
    (∃ u, exec (.osBegin [] []) (capped 7 4 8) = .next u ∧ u.resp = [0x01]) ∧
    (∃ u, exec (.osStr []) { small with osCur := 27 } = .next u ∧ u.resp = [0x00]) ∧
    (∃ u, exec (.osStr []) { capped 27 4 8 with osCur := 27 } = .next u ∧ u.resp = [0x01]) ∧
    (∃ u, exec (.osI32 1) { small with osCur := 27 } = .next u ∧ u.resp = [0x00]) ∧
    (∃ u, exec (.osF32 1) { capped 30 4 8 with osCur := 27 } = .next u ∧ u.resp = [0x01]) ∧
    (∃ u, exec (.osBlob [0x00]) small = .next u ∧ u.resp = [0x00]) ∧
    ∃ u, exec (.osBlob []) (capped 3 4 8) = .next u ∧ u.resp = [0x01] :=
  ⟨ends_next (by decide), ends_next (by decide), ends_next (by decide), ends_next (by decide), ends_next (by decide),
    ends_next (by decide), ends_next (by decide), ends_next (by decide)⟩

/-- A message that just fits: 12 bytes of header, an integer, and a blob of one byte. -/
theorem witness_MessageWireFormat :
    (oscMessage [0x2F, 0x66, 0x6F, 0x6F] [.int 42, .blob [0x01]]).length ≤ (capped 21 4 8).params.osCap.val ∧
    (oscMessage [] []).length ≤ (capped 8 4 8).params.osCap.val := by decide

theorem witness_IntegerReadsBackBigEndian :
    (let s := { capped 65535 4 8 with osCur := 65531 }; s.osCur.toNat + 4 ≤ s.params.osCap.val) ∧
    (capped 4 4 8).osCur.toNat + 4 ≤ (capped 4 4 8).params.osCap.val := by decide

theorem witness_SdPushEndCompletesFrame : (small.sdEsc = .normal ∧ small.sdLen = 0) ∧
    (afterSd2.sdEsc = .normal ∧ afterSd2.sdLen ≠ 0) := by decide

theorem witness_SdPushEscEntersEscaped : small.sdEsc = .normal ∧ afterSd2.sdEsc = .normal := by decide

/-- A held frame, an empty buffer, the last free byte and a full buffer; 0xDC and 0xDD are data in `Normal`. -/
theorem witness_SdPushDataAppends : afterSd2.sdLegal ∧ afterSd2.sdEsc = .normal ∧ afterSd2.sdReady = true ∧
    small.sdLegal ∧ small.sdLen.toNat < small.params.sdCap.val ∧
    (let s := { capped 64 2 8 with sdLen := 1 }; s.sdLegal ∧ s.sdReady = false ∧ s.sdLen.toNat < s.params.sdCap.val) ∧
    (let s := { capped 64 2 8 with sdLen := 2 }; s.sdLegal ∧ s.sdReady = false ∧ s.sdLen.toNat = s.params.sdCap.val) ∧
    (0xDC : Byte) ≠ 0xC0 ∧ (0xDC : Byte) ≠ 0xDB ∧ (0xDD : Byte) ≠ 0xC0 ∧ (0xDD : Byte) ≠ 0xDB := by
  unfold State.sdLegal; decide

theorem witness_SdPushEscapedLiteralAppends :
    (let s := { afterSd2 with sdEsc := .escaped }; s.sdLegal ∧ s.sdEsc = .escaped ∧ s.sdReady = true) ∧
    (let s := { capped 64 2 8 with sdEsc := .escaped, sdLen := 1 };
      s.sdLegal ∧ s.sdReady = false ∧ s.sdLen.toNat < s.params.sdCap.val) ∧
    (let s := { capped 64 2 8 with sdEsc := .escaped, sdLen := 2 };
      s.sdLegal ∧ s.sdReady = false ∧ s.sdLen.toNat = s.params.sdCap.val) := by
  unfold State.sdLegal; decide

/-- END, ESC and the neighbours of ESC_END and ESC_ESC. -/
theorem witness_SdPushEscapedViolation : { afterSd2 with sdEsc := .escaped }.sdEsc = .escaped ∧
    ([0xC0, 0xDB, 0xDE] : List Byte).all (fun c => c != 0xDC && c != 0xDD) = true := by decide

theorem witness_SdPushLeavesEscaped :
    (let s := { afterSd2 with sdEsc := .escaped }; s.sdLegal ∧ s.sdEsc = .escaped) ∧
    (let s := { capped 0 0 0 with sdEsc := .escaped }; s.sdLegal ∧ s.sdEsc = .escaped) := by
  unfold State.sdLegal; decide

theorem witness_SdReadReturnsByte : afterSd2.sdLen.toNat ≤ (2 : Half).toNat ∧
    ((1 : Half).toNat < afterSd2.sdLen.toNat ∧ afterSd2.sdm.read (1 : Half).toNat = some 0x02) := by decide

/-- From an empty and from a ready frame; the shortest and the longest frame; the first byte fed and the last. -/
theorem witness_FrameReception :
    (small.sdEsc = .normal ∧ small.sdLen = 0 ∧ 1 ≤ ([0xC0] : List Byte).length ∧
      ([0x01, 0xC0, 0xDB, 0x02] : List Byte).length ≤ small.params.sdCap.val) ∧
    (afterSd2.sdEsc = .normal ∧ afterSd2.sdReady = true) ∧
    stuff [0xC0] ++ [0xC0] = [] ++ 0xDB :: [0xDC, 0xC0] ∧ stuff [0xC0] ++ [0xC0] = [0xDB, 0xDC] ++ 0xC0 :: [] := by decide

theorem witness_TruncatedFrameBecomesReady :
    (let s := capped 64 1 8; s.sdEsc = .normal ∧ s.sdLen = 0 ∧ 1 ≤ s.params.sdCap.val ∧
      s.params.sdCap.val < ([0xC0, 0xDB] : List Byte).length) ∧
    (afterSd2.sdEsc = .normal ∧ afterSd2.sdReady = true ∧
      afterSd2.params.sdCap.val < ([0x01, 0x02, 0x03, 0x04, 0x05] : List Byte).length) ∧
    (let s := capped 64 0 8; s.sdEsc = .normal ∧ s.sdLen = 0 ∧ s.sdReady = false ∧ s.params.sdCap.val = 0) := by decide

theorem witness_SePushAppendsEscaped :
    (let s := { capped 64 4 3 with seLen := 1 }; s.seLen.toNat + ([0xDB, 0xDC] : List Byte).length ≤ s.params.seCap.val) ∧
    (let s := { capped 64 4 3 with seLen := 2 }; s.params.seCap.val < s.seLen.toNat + ([0xDB, 0xDD] : List Byte).length) ∧
    (let s := { capped 64 4 3 with seLen := 2 }; s.seLen.toNat + ([0xDC] : List Byte).length ≤ s.params.seCap.val) := by
  decide

theorem witness_SeEndAppendsTerminator :
    (let s := { capped 64 4 3 with seLen := 2 }; s.seLen.toNat + 1 ≤ s.params.seCap.val) ∧
    (let s := { capped 64 4 3 with seLen := 3 }; s.params.seCap.val < s.seLen.toNat + 1) := by decide

theorem witness_SeReadReturnsByte :
    (let s := { small with seLen := 2, sem := holding [0xDB, 0xDD] };
      s.seLen.toNat ≤ (2 : Half).toNat ∧ (1 : Half).toNat < s.seLen.toNat ∧ s.sem.read (1 : Half).toNat = some 0xDD) := by
  decide

/-- The frame of vector SE-12 in a buffer it just fills; the places of its END and of its last ESC. -/
theorem witness_FrameTransmission :
    (capped 64 4 6).seLen.toNat + (stuff [0xC0, 0xDB, 0x00]).length + 1 ≤ (capped 64 4 6).params.seCap.val ∧
    ¬ (capped 64 4 5).seLen.toNat + (stuff [0xC0, 0xDB, 0x00]).length + 1 ≤ (capped 64 4 5).params.seCap.val ∧
    (stuff [0xC0, 0xDB, 0x00] ++ [0xC0])[5]? = some 0xC0 ∧ (stuff [0xC0, 0xDB, 0x00] ++ [0xC0])[2]? = some 0xDB := by
  decide

theorem witness_SlipRoundTrip :
    (let s := capped 0 1 3; 1 ≤ ([0xC0] : List Byte).length ∧ ([0xC0] : List Byte).length ≤ s.params.sdCap.val ∧
      (stuff [0xC0]).length + 1 ≤ s.params.seCap.val ∧ s.seLen = 0 ∧ s.sdEsc = .normal ∧ s.sdLen = 0) ∧
    (afterSd2.seLen = 0 ∧ afterSd2.sdEsc = .normal ∧ afterSd2.sdReady = true) := by decide

theorem witness_StepKeepsInv : (full.Inv ∧ ∃ t, step full = .next t ∧ t.resp = []) ∧
    stalled.Inv ∧ ∃ t, step stalled = .next t ∧ t.resp = [0x00] :=
  ⟨⟨full_inv, ends_next (by decide)⟩, stalled_inv, ends_next (by decide)⟩

theorem witness_LegalStatesStopNoCommand : full.Inv ∧ small.Inv := ⟨full_inv, small_inv⟩

theorem witness_StepStopsOnlyOnHost : full.Inv ∧ stalled.Inv ∧ small.Inv := ⟨full_inv, stalled_inv, small_inv⟩

theorem witness_CommandsWriteOnlyTheirUnit : ∀ i ∈ oneOfEach, ∃ t, exec i full = .next t := fun i hi =>
  completes_next (List.all_eq_true.mp (by decide : (oneOfEach.all fun i => completes (exec i full)) = true) i hi)

/-- Two states that agree on one unit and on nothing else; and a state whose read stops. -/
theorem witness_CommandsReadOnlyTheirUnit :
    afterFoo.agreeOn .os { full with params := { osCap := 64, sdCap := 1, seCap := 1 }, osCur := 12,
                                     osm := holding fooBytes } ∧
    afterSd2.agreeOn .sd { full with params := { osCap := 1, sdCap := 4, seCap := 1 }, sdLen := 2,
                                     sdm := holding [0x01, 0x02] } ∧
    small.agreeOn .se { full with params := { osCap := 1, sdCap := 1, seCap := 8 }, seLen := 0, sem := [] } ∧
    exec (.osRead 0) { small with osCur := 1 } = .fault .unwrittenByte :=
  ⟨⟨⟨rfl, rfl⟩, rfl⟩, ⟨⟨rfl, rfl, rfl, rfl⟩, rfl⟩, ⟨⟨rfl, rfl⟩, rfl⟩, rfl⟩

theorem witness_ReadsHaveNoSideEffects :
    ∀ i ∈ ([.osRead 0, .sdRead 0, .seRead 0, .osStatus, .sdStatus, .seStatus] : List Instr),
      ∃ t, exec i full = .next t := fun i hi =>
  completes_next (List.all_eq_true.mp (by decide : (([.osRead 0, .sdRead 0, .seRead 0, .osStatus, .sdStatus,
    .seStatus] : List Instr).all fun i => completes (exec i full)) = true) i hi)

/-- Every command that can overflow does so in a full machine; an escaped byte too. -/
theorem witness_OverflowWritesNothing :
    (let s := { full with sdReady := false }; s.sdLegal) ∧ (let s := { full with sdReady := false, sdEsc := .escaped }; s.sdLegal) ∧
    (∀ i ∈ ([.osBegin [] [], .osI32 0, .osF32 0, .osStr [], .osBlob [], .sdPush 0x01, .sePush 0x01, .seEnd] : List Instr),
      ∃ t, exec i { full with sdReady := false } = .next t ∧ t.resp = [0x01]) ∧
    ∃ t, exec (.sdPush 0xDD) { full with sdReady := false, sdEsc := .escaped } = .next t ∧ t.resp = [0x01] := by
  refine ⟨⟨by decide, by decide⟩, ⟨by decide, by decide⟩, fun i hi => ends_next ?_, ends_next (by decide)⟩
  exact List.all_eq_true.mp (by decide : (([.osBegin [] [], .osI32 0, .osF32 0, .osStr [], .osBlob [], .sdPush 0x01,
    .sePush 0x01, .seEnd] : List Instr).all fun i =>
      ends (exec i { full with sdReady := false }) [0x01] (fun _ => true)) = true) i hi

/-- A write at the last offset, and the first offset outside. -/
theorem witness_NoWriteOutsideBuffers : (∃ t, exec .seEnd (capped 0 0 1) = .next t ∧ t.resp = [0x00]) ∧
    (capped 0 0 1).params.seCap.val ≤ 1 ∧ (capped 0 0 1).params.osCap.val ≤ 0 :=
  ⟨ends_next (by decide), by decide, by decide⟩

theorem witness_CapacitiesNeverChange :
    (∃ t, step full = .next t ∧ t.resp = []) ∧
    ∃ t, step { full with resetAsserted := true, host := [.resetLine false] } = .next t ∧ t.resp = [] :=
  ⟨ends_next (by decide), ends_next (by decide)⟩

/-- Asserting with a byte that waits on the port; a release after other acts under reset, and one with nothing
asserted; a take and a send under reset. -/
theorem witness_ResetInputRestoresReset :
    (let s := { stalled with host := [.resetLine true] }; s.portWaits ∧ s.host = .resetLine true :: []) ∧
    (let s := { stalled with resetAsserted := true, port := [0x01, 0x1F], host := [.resetLine false, .take] }
     s.resetAsserted = true ∧ s.host = .resetLine false :: [.take]) ∧
    (let s := { stalled with host := [.resetLine false] }
     s.portWaits ∧ s.resetAsserted = false ∧ s.host = .resetLine false :: []) ∧
    (let s := { stalled with resetAsserted := true, host := [.take] }; s.resetAsserted = true ∧ s.host = .take :: []) ∧
    (let s := { stalled with resetAsserted := true }
     s.resetAsserted = true ∧ ∃ t, step s = .next t ∧ t.resp = [0x00]) :=
  ⟨⟨stalled_waits, rfl⟩, ⟨rfl, rfl⟩, ⟨stalled_waits, rfl, rfl⟩, ⟨rfl, rfl⟩, rfl, ends_next (by decide)⟩

/-- The message of program P5, each value with its tag; operands of no message; a tag that is none of the four; and for
each kind of value a token that is one. -/
theorem witness_MessagePseudoFollowsTags :
    expand .osMsg (msgTokens [0x2F, 0x61] [0x69, 0x66, 0x73, 0x62]
      [.word ['1'], .word ['0', 'x', '0'], .text [0x6F], .blob [0xAA]]) =
      some [.osBegin [0x2F, 0x61] [0x69, 0x66, 0x73, 0x62], .osI32 1, .osF32 0, .osStr [0x6F], .osBlob [0xAA]] ∧
    expand .osMsg (msgTokens [] [] []) = some [.osBegin [] []] ∧
    (∀ a t vs, [Token.text []] ≠ msgTokens a t vs) ∧
    ((0x54 : Byte) ≠ 0x69 ∧ (0x54 : Byte) ≠ 0x66 ∧ (0x54 : Byte) ≠ 0x73 ∧ (0x54 : Byte) ≠ 0x62) ∧
    parseInt ['1'] = some 1 ∧ parsePattern ['0', 'x', '0'] = some 0 :=
  ⟨by decide, by decide, fun _ _ _ h => by simp [msgTokens] at h, by decide, by decide, by decide⟩

theorem witness_BytePseudosPushInOrder :
    ([['2', '5', '5'], ['0', 'x', 'C', '0']] : List (List Char)).map (parseNat 256) =
      ([0xFF, 0xC0] : List Byte).map (fun b => some b.toNat) := by decide

end Sys2Proof.Tests
end

section
/-! SUPPORT. The scope family (spec/00_scope.md R8, R15, R16): what padding and OSC strings are in the spec's terms,
and that a command leaves the ports and the capacities as they are. -/

namespace Sys2Proof.Machine

/-! ## Padding and OSC strings (R15, R16) -/

theorem pad4_lt (k : Nat) : pad4 k < 4 := Nat.mod_lt _ (by decide)

/-- R15: the padding ends at a multiple of 4. -/
theorem add_pad4_mod (k : Nat) : (k + pad4 k) % 4 = 0 := by
  unfold pad4; omega

@[simp] theorem zeros_length (n : Nat) : (zeros n).length = n := List.length_replicate

theorem zeros_getElem? {n j : Nat} (h : j < n) : (zeros n)[j]? = some 0x00 := by
  simp [zeros, h]

/-- The NUL and the padding of an OSC string are one run of zero bytes. -/
theorem oscStr_eq (d : List Byte) (k : Nat) : oscStr d k = d ++ zeros (pad4 (k + d.length + 1) + 1) := by
  simp [oscStr, zeros, List.replicate_succ]

theorem oscStr_length (d : List Byte) (k : Nat) :
    (oscStr d k).length = d.length + (pad4 (k + d.length + 1) + 1) := by
  simp [oscStr_eq]

theorem oscStr_take (d : List Byte) (k : Nat) : (oscStr d k).take d.length = d := by
  rw [oscStr_eq, List.take_left]

/-- Every byte of an OSC string after the string itself is zero. -/
theorem oscStr_getElem?_zero {d : List Byte} {k j : Nat} (hd : d.length ≤ j) (hj : j < (oscStr d k).length) :
    (oscStr d k)[j]? = some 0x00 := by
  rw [oscStr_length] at hj
  rw [oscStr_eq, List.getElem?_append_right hd]
  exact zeros_getElem? (by omega)

/-- R16: an OSC string brings the absolute cursor to a multiple of 4. -/
theorem add_oscStr_length_mod (d : List Byte) (k : Nat) : (k + (oscStr d k).length) % 4 = 0 := by
  have h := add_pad4_mod (k + d.length + 1)
  rw [oscStr_length]; omega

/-- Settles O15: the NUL and the padding are one run of one to four zero bytes, whose length `pad4` fixes. -/
theorem oscStringAlignsCursor : Obligations.OscStringAlignsCursor := by
  intro d k
  have hlen := oscStr_length d k
  have hpad := pad4_lt (k + d.length + 1)
  exact ⟨add_oscStr_length_mod d k, by omega, by omega, oscStr_take d k, fun _ => oscStr_getElem?_zero⟩

/-! ## What no command touches: the capacities, the command port, the reset input (R8, R30) -/

/-- A state that differs from `s` in the units and the response only is closed by this too: the six fields are then
`s`'s own by definition. -/
theorem State.samePorts_refl (s : State) : s.samePorts s := ⟨rfl, rfl, rfl, rfl, rfl, rfl⟩

theorem osAppend_samePorts {bs : List Byte} {s t : State} (h : osAppend bs s = .next t) : s.samePorts t := by
  rcases osAppend_cases h with ⟨_, rfl⟩ | ⟨_, rfl⟩ <;> exact s.samePorts_refl

theorem seAppend_samePorts {bs : List Byte} {s t : State} (h : seAppend bs s = .next t) : s.samePorts t := by
  rcases seAppend_cases h with ⟨_, rfl⟩ | ⟨_, rfl⟩ <;> exact s.samePorts_refl

theorem sdAppend_samePorts {v : Byte} {s t : State} (h : sdAppend v s = .next t) : s.samePorts t := by
  rcases sdAppend_cases h with ⟨_, rfl⟩ | ⟨_, rfl⟩ <;> simp [State.samePorts]

theorem readBack_samePorts {m : Memory} {len idx : Half} {s t : State} (h : readBack m len idx s = .next t) :
    s.samePorts t := by
  rcases readBack_cases h with ⟨_, rfl⟩ | ⟨_, _, _, rfl⟩ <;> exact s.samePorts_refl

/-- A response changes nothing but the response port. -/
theorem respond_samePorts {st : Status} {data : List Byte} {s t : State} (h : respond st data s = .next t) :
    s.samePorts t := by
  cases h; exact s.samePorts_refl

theorem sdPushNormal_samePorts {c : Byte} {s t : State} (h : sdPushNormal c s = .next t) : s.samePorts t := by
  by_cases hend : c = slipEnd
  · subst hend
    by_cases hlen : s.sdLen = 0
    · rw [sdPushNormal_end_empty hlen] at h; cases h; exact s.samePorts_refl
    · rw [sdPushNormal_end_frame hlen] at h; cases h; exact s.samePorts_refl
  by_cases hesc : c = slipEsc
  · subst hesc
    rw [sdPushNormal_esc] at h; cases h; exact s.samePorts_refl
  · rw [sdPushNormal_data hend hesc] at h; exact sdAppend_samePorts h

theorem sdPushEscaped_samePorts {c : Byte} {s t : State} (h : sdPushEscaped c s = .next t) : s.samePorts t := by
  by_cases hend : c = slipEscEnd
  · subst hend; exact sdAppend_samePorts h
  by_cases hesc : c = slipEscEsc
  · subst hesc; exact sdAppend_samePorts h
  · rw [sdPushEscaped_other hend hesc] at h; cases h; exact s.samePorts_refl

theorem execSdPush_samePorts {c : Byte} {s t : State} (h : execSdPush c s = .next t) : s.samePorts t := by
  cases hesc : s.sdEsc with
  | normal => rw [execSdPush_normal hesc] at h; exact sdPushNormal_samePorts h
  | escaped => rw [execSdPush_escaped hesc] at h; exact sdPushEscaped_samePorts (s := { s with sdEsc := .normal }) h

/-- No command touches anything outside the units but the response port. -/
theorem exec_samePorts {i : Instr} {s t : State} (h : exec i s = .next t) : s.samePorts t := by
  cases i with
  | osBegin a u => exact osAppend_samePorts (s := { s with osCur := 0 }) h
  | osI32 w => exact osAppend_samePorts h
  | osF32 w => exact osAppend_samePorts h
  | osStr d => exact osAppend_samePorts h
  | osBlob d => exact osAppend_samePorts h
  | osRead idx => exact readBack_samePorts h
  | osStatus => exact respond_samePorts h
  | sdPush c => exact execSdPush_samePorts h
  | sdClear => exact respond_samePorts (s := { s with sdLen := 0, sdReady := false }) h
  | sdRead idx => exact readBack_samePorts h
  | sdStatus => exact respond_samePorts h
  | sePush c => exact seAppend_samePorts h
  | seEnd => exact seAppend_samePorts h
  | seClear => exact respond_samePorts (s := { s with seLen := 0 }) h
  | seRead idx => exact readBack_samePorts h
  | seStatus => exact respond_samePorts h

/-! ## No step changes the capacities (R8, R253) -/

theorem exec_params {i : Instr} {s t : State} (h : exec i s = .next t) : t.params = s.params :=
  (exec_samePorts h).left

theorem acceptByte_params {b : Byte} {s t : State} (h : acceptByte b s = .next t) : t.params = s.params := by
  by_cases hp : isPacket (s.cmdBuf ++ [b])
  · rcases hp with ⟨i, hi⟩ | ⟨why, hw⟩
    · rw [acceptByte_instr hi] at h; exact exec_params (s := { s with cmdBuf := [] }) h
    · rw [acceptByte_illegal hw] at h; cases h; rfl
  · rw [acceptByte_waits hp] at h; cases h; rfl

theorem takeByte_params {s t : State} (h : takeByte s = .next t) : t.params = s.params := by
  by_cases he : s.resetAsserted = true ∨ s.resp = []
  · rw [takeByte_empty he] at h; cases h; rfl
  · rw [not_or, Bool.not_eq_true] at he
    obtain ⟨b, bs, hr⟩ := List.exists_cons_of_ne_nil he.right
    rw [takeByte_goes he.left hr] at h; cases h; rfl

/-- A reset is a reset to the instance's own capacities. -/
theorem driveReset_params {level : Bool} {s t : State} (h : driveReset level s = .next t) : t.params = s.params := by
  unfold driveReset at h
  split at h
  · cases h; rfl
  · split at h <;> cases h <;> rfl

theorem hostStep_params {act : HostAct} {s t : State} (h : hostStep act s = .next t) : t.params = s.params := by
  cases act with
  | send b => cases h; rfl
  | take => exact takeByte_params h
  | resetLine level => exact driveReset_params h

theorem hostTurn_params {s t : State} (h : hostTurn s = .next t) : t.params = s.params := by
  cases hh : s.host with
  | nil => rw [hostTurn_silent hh] at h; cases h
  | cons act later => rw [hostTurn_act hh] at h; exact hostStep_params (s := { s with host := later }) h

/-- Settles O53: a step is the block taking a byte or one act of the host, and neither changes the capacities. -/
theorem capacitiesNeverChange : Obligations.CapacitiesNeverChange := by
  intro s t h
  rcases step_cases s with ⟨b, rest, _, _, hstep⟩ | ⟨_, hstep⟩ <;> rw [hstep] at h
  · exact acceptByte_params (s := { s with port := rest }) h
  · exact hostTurn_params h

end Sys2Proof.Machine
end

section
/-! SUPPORT. The state family (spec/10_state.md R23, R30, R31; 20_memory.md R62): the alignment of the cursor after each
OS command, what a command writes and reads of the units, and the invariant that every step keeps. A command's own unit
is treated command by command; the other units follow from the write frame. -/

namespace Sys2Proof.Machine

/-! ## The alignment of `OS_CUR` (R23) -/

/-- Where an append to the message leaves the cursor, by its response. -/
theorem osAppend_cursor {bs : List Byte} {s u : State} (h : osAppend bs s = .next u) :
    (u.resp = [0x01] ∧ u.osCur = s.osCur) ∨ (u.resp = [0x00] ∧ u.osCur.toNat = s.osCur.toNat + bs.length) := by
  rcases osAppend_cases h with ⟨_, rfl⟩ | ⟨hfit, rfl⟩
  · exact .inl ⟨rfl, rfl⟩
  · exact .inr ⟨rfl, toNat_ofNat_of_le_cap hfit⟩

/-- A message header ends at a multiple of 4, since each of its two strings does. -/
theorem oscHeader_length_mod (a t : List Byte) : (oscHeader a t).length % 4 = 0 := by
  rw [oscHeader, List.length_append]
  exact add_oscStr_length_mod _ _

theorem oscBlob_length (d : List Byte) : (oscBlob d).length = 4 + d.length := by
  simp [oscBlob]

/-- A successful append to the message keeps the cursor mod 4 exactly when its length is a multiple of 4; a failed one
leaves the cursor. -/
theorem osAppend_alignment {bs : List Byte} {s u : State} (h : osAppend bs s = .next u) :
    (u.resp = [0x00] → (u.osCur.toNat % 4 = s.osCur.toNat % 4 ↔ bs.length % 4 = 0)) ∧
      (u.resp ≠ [0x00] → u.osCur = s.osCur) := by
  rcases osAppend_cursor h with ⟨hr, hcur⟩ | ⟨hr, hcur⟩
  · exact ⟨fun hok => absurd (hr.symm.trans hok) (by decide), fun _ => hcur⟩
  · exact ⟨fun _ => by omega, fun hne => absurd hr hne⟩

/-- An append of a multiple of 4 bytes keeps the cursor mod 4, success or failure. -/
theorem osAppend_keeps_mod {bs : List Byte} {s u : State} (h : osAppend bs s = .next u) (h4 : bs.length % 4 = 0) :
    u.osCur.toNat % 4 = s.osCur.toNat % 4 ∧ (u.resp ≠ [0x00] → u.osCur = s.osCur) := by
  obtain ⟨hok, hfail⟩ := osAppend_alignment h
  refine ⟨?_, hfail⟩
  by_cases hr : u.resp = [0x00]
  · exact (hok hr).mpr h4
  · rw [hfail hr]

theorem execOsStr_alignment {d : List Byte} {s u : State} (h : execOsStr d s = .next u) :
    (u.resp = [0x00] → u.osCur.toNat % 4 = 0) ∧ (u.resp ≠ [0x00] → u.osCur = s.osCur) := by
  have hmod := add_oscStr_length_mod d s.osCur.toNat
  refine ⟨fun hok => ?_, (osAppend_alignment h).2⟩
  rcases osAppend_cursor h with ⟨hr, _⟩ | ⟨_, hcur⟩
  · exact absurd (hr.symm.trans hok) (by decide)
  · rw [hcur]; exact hmod

/-- Settles O23: each append's length decides, and `OS.BEGIN` appends its header from cursor 0. -/
theorem cursorAlignmentByCommand : Obligations.CursorAlignmentByCommand := by
  intro s u
  refine ⟨fun a t h => ?_, fun d h => execOsStr_alignment h,
    fun w h => osAppend_keeps_mod h (by rw [beBytes_length]),
    fun w h => osAppend_keeps_mod h (by rw [beBytes_length]), fun d h => ?_⟩
  · obtain ⟨hmod, hfail⟩ := osAppend_keeps_mod (s := { s with osCur := 0 }) h (oscHeader_length_mod a t)
    exact ⟨hmod, hfail⟩
  · obtain ⟨hok, hfail⟩ := osAppend_alignment h
    rw [oscBlob_length, Nat.add_mod_left] at hok
    exact ⟨hok, hfail⟩

/-! ## The rows of the decoder's table (R150) -/

/-- What the decoder does with a received byte: the actions in the table of R150. -/
inductive SdAction where
  | completeFrame
  | enterEscaped
  | append (v : Byte)
  | reportViolation

/-- The row that an escape state and a received byte select. -/
def sdAction (esc : EscState) (c : Byte) : SdAction :=
  match esc with
  | .normal => if c = slipEnd then .completeFrame else if c = slipEsc then .enterEscaped else .append c
  | .escaped =>
    if c = slipEscEnd then .append slipEnd else if c = slipEscEsc then .append slipEsc else .reportViolation

/-- The effect of an action on a state whose `SD_ESC` is 0 already. -/
def SdAction.run : SdAction → State → Result
  | .completeFrame, s => respond .ok [] (if s.sdLen ≠ 0 then { s with sdReady := true } else s)
  | .enterEscaped, s => respond .ok [] { s with sdEsc := .escaped }
  | .append v, s => sdAppend v s
  | .reportViolation, s => raise .protocolViolation 0 s

/-- R150 to R159: `SD.PUSH` takes the action of its row. -/
theorem execSdPush_eq_action (c : Byte) (s : State) :
    execSdPush c s = (sdAction s.sdEsc c).run { s with sdEsc := .normal } := by
  cases hesc : s.sdEsc with
  | normal =>
    have hs : { s with sdEsc := .normal } = s := by rw [← hesc]
    rw [execSdPush_normal hesc, hs, sdPushNormal, sdAction]
    split
    · rfl
    · split <;> rfl
  | escaped =>
    rw [execSdPush_escaped hesc, sdPushEscaped, sdAction]
    split
    · rfl
    · split <;> rfl

/-! ## What a command writes (R30) -/

theorem State.frameOf_resp (u : CodecUnit) (s : State) (r : List Byte) : s.frameOf u { s with resp := r } := by
  cases u with
  | os => exact s.frameOs_resp r
  | sd => exact s.frameSd_resp r
  | se => exact s.frameSe_resp r

/-- An append changes its own unit beside the response, so every field that its frame names is as it was by
definition: the frame of a response closes it. -/
theorem osAppend_frameOs {bs : List Byte} {s t : State} (h : osAppend bs s = .next t) : s.frameOs t := by
  rcases osAppend_cases h with ⟨_, rfl⟩ | ⟨_, rfl⟩ <;> exact s.frameOs_resp []

theorem seAppend_frameSe {bs : List Byte} {s t : State} (h : seAppend bs s = .next t) : s.frameSe t := by
  rcases seAppend_cases h with ⟨_, rfl⟩ | ⟨_, rfl⟩ <;> exact s.frameSe_resp []

theorem sdAppend_frameSd {v : Byte} {s t : State} (h : sdAppend v s = .next t) : s.frameSd t := by
  rcases sdAppend_cases h with ⟨_, rfl⟩ | ⟨_, rfl⟩ <;>
    simp [State.frameSd, State.sameOs, State.sameSe, State.samePorts]

theorem SdAction.run_frameSd {x : SdAction} {s t : State} (h : x.run s = .next t) : s.frameSd t := by
  cases x with
  | completeFrame => cases h; split <;> exact s.frameSd_resp []
  | enterEscaped => cases h; exact s.frameSd_resp []
  | append v => exact sdAppend_frameSd h
  | reportViolation => cases h; exact s.frameSd_resp []

theorem readBack_frameOf (u : CodecUnit) {m : Memory} {len idx : Half} {s t : State}
    (h : readBack m len idx s = .next t) : s.frameOf u t := by
  rcases readBack_cases h with ⟨_, rfl⟩ | ⟨_, _, _, rfl⟩ <;> exact s.frameOf_resp u _

/-- Settles O48: the appends write their own unit only, and every other command changes at most registers of its unit
beside its response. -/
theorem commandsWriteOnlyTheirUnit : Obligations.CommandsWriteOnlyTheirUnit := by
  intro i s t h
  cases i with
  | osBegin a u => exact osAppend_frameOs (s := { s with osCur := 0 }) h
  | osI32 _ | osF32 _ | osStr _ | osBlob _ => exact osAppend_frameOs h
  | osRead _ | sdRead _ | seRead _ => exact readBack_frameOf _ h
  | sdPush c =>
    exact SdAction.run_frameSd (s := { s with sdEsc := .normal }) (by rwa [exec, execSdPush_eq_action] at h)
  | sePush _ | seEnd => exact seAppend_frameSe h
  | osStatus | sdStatus | seStatus => cases h; exact s.frameOf_resp _ _
  | sdClear => cases h; exact s.frameSd_resp []
  | seClear => cases h; exact s.frameSe_resp []

/-! ## What a command reads (R30) -/

/-- Two outcomes that no host can tell apart on the unit: the same response and the same unit afterwards, or the same
fault. -/
def alikeOn (u : CodecUnit) (r r' : Result) : Prop :=
  (∃ t t', r = .next t ∧ r' = .next t' ∧ t.resp = t'.resp ∧ t.agreeOn u t') ∨ ∃ f, r = .fault f ∧ r' = .fault f

/-- The response port is no part of a unit. -/
theorem State.agreeOn_resp {u : CodecUnit} {s s' : State} (h : s.agreeOn u s') (r : List Byte) :
    { s with resp := r }.agreeOn u { s' with resp := r } := by
  cases u <;> exact h

theorem respond_alike {u : CodecUnit} {s s' : State} {st : Status} {data : List Byte} (h : s.agreeOn u s') :
    alikeOn u (respond st data s) (respond st data s') :=
  .inl ⟨_, _, rfl, rfl, rfl, State.agreeOn_resp h _⟩

theorem osAppend_alike {s s' : State} (h : s.agreeOn .os s') (bs : List Byte) :
    alikeOn .os (osAppend bs s) (osAppend bs s') := by
  have ⟨⟨hcur, hosm⟩, hcap⟩ := h
  rw [osAppend, osAppend, hcur, hosm, hcap]
  split
  · exact respond_alike h
  · exact respond_alike ⟨⟨rfl, rfl⟩, hcap⟩

theorem seAppend_alike {s s' : State} (h : s.agreeOn .se s') (bs : List Byte) :
    alikeOn .se (seAppend bs s) (seAppend bs s') := by
  have ⟨⟨hlen, hsem⟩, hcap⟩ := h
  rw [seAppend, seAppend, hlen, hsem, hcap]
  split
  · exact respond_alike h
  · exact respond_alike ⟨⟨rfl, rfl⟩, hcap⟩

theorem sdDiscard_agreeOn {s s' : State} (h : s.agreeOn .sd s') : (sdDiscard s).agreeOn .sd (sdDiscard s') := by
  obtain ⟨⟨hesc, hlen, hready, hsdm⟩, hcap⟩ := h
  simp [State.agreeOn, State.sameSd, hesc, hlen, hready, hsdm, hcap]

theorem sdStore_alike {s s' : State} (h : s.agreeOn .sd s') (v : Byte) :
    alikeOn .sd (sdStore v s) (sdStore v s') := by
  have ⟨⟨hesc, hlen, hready, hsdm⟩, hcap⟩ := h
  rw [sdStore, sdStore, hlen, hsdm, hcap]
  split
  · exact respond_alike h
  · split
    · exact .inr ⟨_, rfl, rfl⟩
    · exact respond_alike ⟨⟨hesc, rfl, hready, rfl⟩, hcap⟩

theorem SdAction.run_alike {x : SdAction} {s s' : State} (h : s.agreeOn .sd s') :
    alikeOn .sd (x.run s) (x.run s') := by
  have ⟨⟨hesc, hlen, hready, hsdm⟩, hcap⟩ := h
  cases x with
  | completeFrame =>
    rw [run, run, hlen]
    split
    · exact respond_alike ⟨⟨hesc, rfl, rfl, hsdm⟩, hcap⟩
    · exact respond_alike h
  | enterEscaped => exact respond_alike ⟨⟨rfl, hlen, hready, hsdm⟩, hcap⟩
  | append v => exact sdStore_alike (sdDiscard_agreeOn h) v
  | reportViolation => exact respond_alike h

theorem readBack_alike {u : CodecUnit} {s s' : State} {m m' : Memory} {len len' : Half} (h : s.agreeOn u s')
    (hm : m' = m) (hlen : len' = len) (idx : Half) :
    alikeOn u (readBack m len idx s) (readBack m' len' idx s') := by
  subst hm hlen
  unfold readBack
  split
  · exact respond_alike h
  · split
    · exact respond_alike h
    · exact .inr ⟨_, rfl, rfl⟩

/-- An OS command reads its own unit only. -/
theorem exec_alike_os {i : Instr} {s s' : State} (hi : codecUnitOf i = .os) (h : s.agreeOn .os s') :
    alikeOn .os (exec i s) (exec i s') := by
  have ⟨⟨hcur, hosm⟩, hcap⟩ := h
  cases i with
  | osBegin a t =>
    exact osAppend_alike (s := { s with osCur := 0 }) (s' := { s' with osCur := 0 }) ⟨⟨rfl, hosm⟩, hcap⟩ _
  | osI32 _ | osF32 _ | osBlob _ => exact osAppend_alike h _
  | osStr d =>
    rw [exec, exec, execOsStr, execOsStr, hcur]
    exact osAppend_alike h _
  | osRead idx => exact readBack_alike h hosm hcur idx
  | osStatus =>
    rw [exec, exec, execOsStatus, execOsStatus, hcur]
    exact respond_alike h
  | _ => cases hi

/-- An SD command reads its own unit only. -/
theorem exec_alike_sd {i : Instr} {s s' : State} (hi : codecUnitOf i = .sd) (h : s.agreeOn .sd s') :
    alikeOn .sd (exec i s) (exec i s') := by
  have ⟨⟨hesc, hlen, hready, hsdm⟩, hcap⟩ := h
  cases i with
  | sdPush c =>
    rw [exec, exec, execSdPush_eq_action, execSdPush_eq_action, hesc]
    exact SdAction.run_alike ⟨⟨rfl, hlen, hready, hsdm⟩, hcap⟩
  | sdClear => exact respond_alike ⟨⟨hesc, rfl, rfl, hsdm⟩, hcap⟩
  | sdRead idx => exact readBack_alike h hsdm hlen idx
  | sdStatus =>
    rw [exec, exec, execSdStatus, execSdStatus, hesc, hlen, hready]
    exact respond_alike h
  | _ => cases hi

/-- An SE command reads its own unit only. -/
theorem exec_alike_se {i : Instr} {s s' : State} (hi : codecUnitOf i = .se) (h : s.agreeOn .se s') :
    alikeOn .se (exec i s) (exec i s') := by
  have ⟨⟨hlen, hsem⟩, hcap⟩ := h
  cases i with
  | sePush _ | seEnd => exact seAppend_alike h _
  | seClear => exact respond_alike ⟨⟨rfl, hsem⟩, hcap⟩
  | seRead idx => exact readBack_alike h hsem hlen idx
  | seStatus =>
    rw [exec, exec, execSeStatus, execSeStatus, hlen]
    exact respond_alike h
  | _ => cases hi

/-- Settles O49: unit by unit, the capacity checks, the written bytes and the responses come from the unit alone. -/
theorem commandsReadOnlyTheirUnit : Obligations.CommandsReadOnlyTheirUnit := by
  intro i s s' h
  cases hi : codecUnitOf i <;> rw [hi] at h
  · exact exec_alike_os hi h
  · exact exec_alike_sd hi h
  · exact exec_alike_se hi h

/-! ## The invariant, unit by unit (R23 to R27, R31) -/

/-- What the invariant says of one unit: its buffer is sound, and no empty frame is ready. -/
def State.unitSound (s : State) : CodecUnit → Prop
  | .os => s.osm.Sound s.params.osCap.val s.osCur.toNat
  | .sd => s.sdm.Sound s.params.sdCap.val s.sdLen.toNat ∧ (s.sdReady = true → s.sdLen ≠ 0)
  | .se => s.sem.Sound s.params.seCap.val s.seLen.toNat

/-- The invariant is the soundness of the three units, an incomplete packet in `CMD_BUF`, and the rest of one
response. -/
theorem State.inv_iff {s : State} :
    s.Inv ↔ (∀ u, s.unitSound u) ∧ decode s.cmdBuf = .incomplete ∧ ∃ gone, IsResponse (gone ++ s.resp) := by
  constructor
  · rintro ⟨hos, hsd, hse, hready, hbuf, hresp⟩
    exact ⟨(fun | .os => hos | .sd => ⟨hsd, hready⟩ | .se => hse), hbuf, hresp⟩
  · rintro ⟨hunits, hbuf, hresp⟩
    exact ⟨hunits .os, (hunits .sd).1, hunits .se, (hunits .sd).2, hbuf, hresp⟩

theorem State.Inv.unitSound {s : State} (h : s.Inv) (u : CodecUnit) : s.unitSound u := (State.inv_iff.mp h).1 u

theorem State.unitSound_resp {s : State} {u : CodecUnit} (h : s.unitSound u) (r : List Byte) :
    { s with resp := r }.unitSound u := by
  cases u <;> exact h

/-- A frame keeps every unit but its own as it is. -/
theorem State.agreeOn_of_frameOf {s t : State} {u v : CodecUnit} (h : s.frameOf u t) (hne : v ≠ u) :
    s.agreeOn v t := by
  cases u with
  | os =>
    obtain ⟨hsd, hse, hp, _⟩ := h
    cases v with
    | os => exact absurd rfl hne
    | sd => exact ⟨hsd, by rw [hp]⟩
    | se => exact ⟨hse, by rw [hp]⟩
  | sd =>
    obtain ⟨hos, hse, hp, _⟩ := h
    cases v with
    | os => exact ⟨hos, by rw [hp]⟩
    | sd => exact absurd rfl hne
    | se => exact ⟨hse, by rw [hp]⟩
  | se =>
    obtain ⟨hos, hsd, hp, _⟩ := h
    cases v with
    | os => exact ⟨hos, by rw [hp]⟩
    | sd => exact ⟨hsd, by rw [hp]⟩
    | se => exact absurd rfl hne

/-- Soundness of a unit speaks of that unit alone. -/
theorem State.unitSound_of_agreeOn {s t : State} {u : CodecUnit} (h : s.agreeOn u t) (hs : s.unitSound u) :
    t.unitSound u := by
  cases u with
  | os => obtain ⟨⟨hcur, hosm⟩, hcap⟩ := h; rwa [unitSound, hcur, hosm, hcap]
  | sd => obtain ⟨⟨_, hlen, hready, hsdm⟩, hcap⟩ := h; rwa [unitSound, hlen, hready, hsdm, hcap]
  | se => obtain ⟨⟨hlen, hsem⟩, hcap⟩ := h; rwa [unitSound, hlen, hsem, hcap]

theorem State.sdLegal_of_unitSound {s : State} (h : s.unitSound .sd) : s.sdLegal := ⟨h.1.fits, h.2⟩

/-! ## Every command completes (R31, R252) -/

theorem SdAction.run_next {s : State} (h : s.unitSound .sd) (x : SdAction) : ∃ t, x.run s = .next t := by
  cases x with
  | append v => obtain ⟨t, ht, _⟩ := sdAppend_spec v s (State.sdLegal_of_unitSound h); exact ⟨t, ht⟩
  | completeFrame | enterEscaped | reportViolation => exact ⟨_, rfl⟩

/-- A command needs its own unit sound only. -/
theorem exec_next_of_unitSound (i : Instr) {s : State} (h : s.unitSound (codecUnitOf i)) : ∃ t, exec i s = .next t := by
  cases i with
  | osBegin _ _ | osI32 _ | osF32 _ | osStr _ | osBlob _ => exact osAppend_next _ _
  | sePush _ | seEnd => exact seAppend_next _ _
  | osRead _ | seRead _ => exact readBack_next s h
  | sdRead _ => exact readBack_next s h.1
  | sdPush c =>
    rw [exec, execSdPush_eq_action]
    exact SdAction.run_next (s := { s with sdEsc := .normal }) h _
  | osStatus | sdStatus | seStatus | sdClear | seClear => exact ⟨_, rfl⟩

/-- Settles O46: the two stops of a command, an unwritten byte and an offset outside the buffer, are what soundness of
its unit rules out. -/
theorem legalStatesStopNoCommand : Obligations.LegalStatesStopNoCommand :=
  fun i _ h => exec_next_of_unitSound i (h.unitSound _)

/-! ## Every command leaves one whole response (R74) -/

theorem osAppend_isResponse {bs : List Byte} {s t : State} (h : osAppend bs s = .next t) : IsResponse t.resp := by
  rcases osAppend_cases h with ⟨_, rfl⟩ | ⟨_, rfl⟩
  · exact .status .bufferOverflow
  · exact .status .ok

theorem seAppend_isResponse {bs : List Byte} {s t : State} (h : seAppend bs s = .next t) : IsResponse t.resp := by
  rcases seAppend_cases h with ⟨_, rfl⟩ | ⟨_, rfl⟩
  · exact .status .bufferOverflow
  · exact .status .ok

theorem sdAppend_isResponse {v : Byte} {s t : State} (h : sdAppend v s = .next t) : IsResponse t.resp := by
  rcases sdAppend_cases h with ⟨_, rfl⟩ | ⟨_, rfl⟩
  · exact .status .bufferOverflow
  · exact .status .ok

theorem SdAction.run_isResponse {x : SdAction} {s t : State} (h : x.run s = .next t) : IsResponse t.resp := by
  cases x with
  | append v => exact sdAppend_isResponse h
  | completeFrame | enterEscaped => cases h; exact .status .ok
  | reportViolation => cases h; exact .status .protocolViolation

theorem readBack_isResponse {m : Memory} {len idx : Half} {s t : State} (h : readBack m len idx s = .next t) :
    IsResponse t.resp := by
  rcases readBack_cases h with ⟨_, rfl⟩ | ⟨_, v, _, rfl⟩
  · exact .data .indexOutOfRange 0x00 fun _ => rfl
  · exact .data .ok v fun hne => absurd rfl hne

/-- Bits 7:2 of the flags byte are zero (R163). -/
theorem sdFlags_lt (esc : EscState) (ready : Bool) : (sdFlags esc ready).toNat < 4 := by
  cases esc <;> cases ready <;> decide

theorem exec_isResponse {i : Instr} {s t : State} (h : exec i s = .next t) : IsResponse t.resp := by
  cases i with
  | osBegin _ _ | osI32 _ | osF32 _ | osStr _ | osBlob _ => exact osAppend_isResponse h
  | sePush _ | seEnd => exact seAppend_isResponse h
  | osRead _ | sdRead _ | seRead _ => exact readBack_isResponse h
  | sdPush c => exact SdAction.run_isResponse (by rwa [exec, execSdPush_eq_action] at h)
  | osStatus | seStatus => cases h; exact .length .ok _
  | sdStatus => cases h; exact .flags .ok _ _ (sdFlags_lt _ _)
  | sdClear | seClear => cases h; exact .status .ok

/-! ## Every command keeps the units sound (R23 to R27, R29, R62) -/

theorem osAppend_unitSound {bs : List Byte} {s t : State} (hs : s.unitSound .os) (h : osAppend bs s = .next t) :
    t.unitSound .os := by
  rcases osAppend_cases h with ⟨_, rfl⟩ | ⟨hfit, rfl⟩
  · exact hs
  · have := Memory.Sound.append hs bs hfit
    rwa [← toNat_ofNat_of_le_cap hfit] at this

theorem seAppend_unitSound {bs : List Byte} {s t : State} (hs : s.unitSound .se) (h : seAppend bs s = .next t) :
    t.unitSound .se := by
  rcases seAppend_cases h with ⟨_, rfl⟩ | ⟨hfit, rfl⟩
  · exact hs
  · have := Memory.Sound.append hs bs hfit
    rwa [← toNat_ofNat_of_le_cap hfit] at this

/-- Dropping a frame only shortens the buffer's length, and nothing is ready then. -/
theorem State.unitSound_dropFrame {s : State} (hs : s.unitSound .sd) :
    { s with sdLen := 0, sdReady := false }.unitSound .sd :=
  ⟨hs.1.shorten (Nat.zero_le _), Bool.noConfusion⟩

theorem sdDiscard_unitSound {s : State} (hs : s.unitSound .sd) : (sdDiscard s).unitSound .sd := by
  unfold sdDiscard
  split
  · exact State.unitSound_dropFrame hs
  · exact hs

theorem sdAppend_unitSound {v : Byte} {s t : State} (hs : s.unitSound .sd) (h : sdAppend v s = .next t) :
    t.unitSound .sd := by
  have hd := sdDiscard_unitSound hs
  rcases sdAppend_cases h with ⟨_, rfl⟩ | ⟨hlt, rfl⟩
  · exact hd
  · refine ⟨?_, fun hr => absurd hr (by simp)⟩
    have hfit : (sdDiscard s).sdLen.toNat + [v].length ≤ (sdDiscard s).params.sdCap.val := by simpa using hlt
    have := hd.1.append [v] hfit
    rwa [sdDiscard_sdm, ← toNat_ofNat_of_le_cap hfit] at this

theorem SdAction.run_unitSound {x : SdAction} {s t : State} (hs : s.unitSound .sd) (h : x.run s = .next t) :
    t.unitSound .sd := by
  cases x with
  | completeFrame =>
    cases h
    split
    case isTrue hlen => exact ⟨hs.1, fun _ => hlen⟩
    case isFalse => exact hs
  | append v => exact sdAppend_unitSound hs h
  | enterEscaped | reportViolation => cases h; exact hs

theorem readBack_unitSound {u : CodecUnit} {m : Memory} {len idx : Half} {s t : State} (hs : s.unitSound u)
    (h : readBack m len idx s = .next t) : t.unitSound u := by
  rcases readBack_cases h with ⟨_, rfl⟩ | ⟨_, _, _, rfl⟩ <;> exact State.unitSound_resp hs _

/-- A command keeps its own unit sound. -/
theorem exec_keeps_own_unitSound {i : Instr} {s t : State} (hs : s.unitSound (codecUnitOf i))
    (h : exec i s = .next t) : t.unitSound (codecUnitOf i) := by
  cases i with
  | osBegin a u =>
    exact osAppend_unitSound (s := { s with osCur := 0 }) (Memory.Sound.shorten hs (Nat.zero_le _)) h
  | osI32 _ | osF32 _ | osStr _ | osBlob _ => exact osAppend_unitSound hs h
  | sePush _ | seEnd => exact seAppend_unitSound hs h
  | osRead _ | sdRead _ | seRead _ => exact readBack_unitSound hs h
  | sdPush c =>
    exact SdAction.run_unitSound (s := { s with sdEsc := .normal }) hs (by rwa [exec, execSdPush_eq_action] at h)
  | sdClear => cases h; exact State.unitSound_dropFrame (s := s) hs
  | seClear => cases h; exact Memory.Sound.shorten hs (Nat.zero_le _)
  | osStatus | sdStatus | seStatus => cases h; exact hs

/-- A command keeps every unit sound: its own by what it does, the others because it writes nothing of them. -/
theorem exec_keeps_unitSound {i : Instr} {s t : State} {u : CodecUnit} (hs : ∀ u, s.unitSound u)
    (h : exec i s = .next t) : t.unitSound u := by
  by_cases hu : u = codecUnitOf i
  · subst hu; exact exec_keeps_own_unitSound (hs _) h
  · exact State.unitSound_of_agreeOn (State.agreeOn_of_frameOf (commandsWriteOnlyTheirUnit i s t h) hu) (hs u)

/-! ## Every step keeps the invariant -/

/-- The invariant says nothing of the command port, the reset input, the host and what has gone out. -/
theorem State.Inv.with_surroundings {s : State} (h : s.Inv) (port : List Byte) (asserted : Bool) (host : List HostAct)
    (out : List Byte) : { s with port := port, resetAsserted := asserted, host := host, out := out }.Inv :=
  ⟨h.os, h.sd, h.se, h.ready, h.assembling, h.response⟩

theorem State.Inv.with_cmdBuf {s : State} (h : s.Inv) {buf : List Byte} (hbuf : decode buf = .incomplete) :
    { s with cmdBuf := buf }.Inv :=
  ⟨h.os, h.sd, h.se, h.ready, hbuf, h.response⟩

theorem State.Inv.with_resp {s : State} (h : s.Inv) {r : List Byte} (hr : ∃ gone, IsResponse (gone ++ r)) :
    { s with resp := r }.Inv :=
  ⟨h.os, h.sd, h.se, h.ready, h.assembling, hr⟩

/-- R251, R252: the empty buffers are sound for every capacity. -/
theorem State.inv_resetFor (p : Params) : (State.resetFor p).Inv where
  os := Memory.sound_nil _
  sd := Memory.sound_nil _
  se := Memory.sound_nil _
  ready h := absurd h (by simp)
  assembling := decode_nil
  response := ⟨[0x00], .status .ok⟩

/-- A byte that completes no packet leaves the packet incomplete. -/
theorem decode_append_incomplete {bs : List Byte} {b : Byte} (h : decode bs = .incomplete)
    (hp : ¬ isPacket (bs ++ [b])) : decode (bs ++ [b]) = .incomplete := by
  cases hd : decode (bs ++ [b]) with
  | incomplete => rfl
  | overlong => exact absurd hd (decode_append_ne_overlong b h)
  | instr i => exact absurd (.inl ⟨i, hd⟩) hp
  | illegal why => exact absurd (.inr ⟨why, hd⟩) hp

theorem exec_inv {i : Instr} {s t : State} (hs : s.Inv) (h : exec i s = .next t) : t.Inv := by
  obtain ⟨_, _, hbuf, _⟩ := exec_samePorts h
  exact State.inv_iff.mpr
    ⟨fun _ => exec_keeps_unitSound hs.unitSound h, hbuf ▸ hs.assembling, [], exec_isResponse h⟩

theorem acceptByte_inv {b : Byte} {s t : State} (hs : s.Inv) (h : acceptByte b s = .next t) : t.Inv := by
  by_cases hp : isPacket (s.cmdBuf ++ [b])
  · rcases hp with ⟨i, hi⟩ | ⟨why, hw⟩
    · rw [acceptByte_instr hi] at h; exact exec_inv (hs.with_cmdBuf decode_nil) h
    · rw [acceptByte_illegal hw] at h; cases h
      exact (hs.with_cmdBuf decode_nil).with_resp ⟨[], .status .illegalCommand⟩
  · rw [acceptByte_waits hp] at h; cases h
    exact hs.with_cmdBuf (decode_append_incomplete hs.assembling hp)

/-- A byte that goes out joins those of its response that have gone out before. -/
theorem takeByte_inv {s t : State} (hs : s.Inv) (h : takeByte s = .next t) : t.Inv := by
  by_cases he : s.resetAsserted = true ∨ s.resp = []
  · rw [takeByte_empty he] at h; cases h; exact hs
  · rw [not_or, Bool.not_eq_true] at he
    obtain ⟨b, bs, hr⟩ := List.exists_cons_of_ne_nil he.right
    rw [takeByte_goes he.left hr] at h; cases h
    obtain ⟨gone, hgone⟩ := hs.response
    rw [hr, List.append_cons] at hgone
    exact (hs.with_resp ⟨gone ++ [b], hgone⟩).with_surroundings s.port s.resetAsserted s.host _

theorem driveReset_inv {level : Bool} {s t : State} (hs : s.Inv) (h : driveReset level s = .next t) : t.Inv := by
  unfold driveReset at h
  split at h
  · cases h; exact hs.with_surroundings s.port true s.host s.out
  · split at h <;> cases h
    · exact (State.inv_resetFor s.params).with_surroundings s.port false s.host s.out
    · exact hs

theorem hostStep_inv {act : HostAct} {s t : State} (hs : s.Inv) (h : hostStep act s = .next t) : t.Inv := by
  cases act with
  | send b => cases h; exact hs.with_surroundings _ s.resetAsserted s.host s.out
  | take => exact takeByte_inv hs h
  | resetLine level => exact driveReset_inv hs h

theorem hostTurn_inv {s t : State} (hs : s.Inv) (h : hostTurn s = .next t) : t.Inv := by
  cases hh : s.host with
  | nil => rw [hostTurn_silent hh] at h; cases h
  | cons act later =>
    rw [hostTurn_act hh] at h
    exact hostStep_inv (hs.with_surroundings s.port s.resetAsserted later s.out) h

/-- Settles O45: a step is the block taking a byte, which fills `CMD_BUF` or runs a packet, or one act of the host. -/
theorem stepKeepsInv : Obligations.StepKeepsInv := by
  intro s t hs h
  rcases step_cases s with ⟨b, rest, _, _, hstep⟩ | ⟨_, hstep⟩ <;> rw [hstep] at h
  · exact acceptByte_inv (hs.with_surroundings rest s.resetAsserted s.host s.out) h
  · exact hostTurn_inv hs h

end Sys2Proof.Machine
end

section
/-! SUPPORT. The memory family (spec/20_memory.md R56, R61, R62, R63): every write stays inside its buffer, an overflow
writes nothing, the commands that only look change nothing, and written bytes read back in order. -/

namespace Sys2Proof.Machine

/-! ## No write outside a buffer (R62) -/

/-- The buffer of a unit (R50). -/
def State.buffer (s : State) : CodecUnit → Memory
  | .os => s.osm
  | .sd => s.sdm
  | .se => s.sem

/-- The capacity of a unit's buffer (R8). -/
def State.capacity (s : State) : CodecUnit → Nat
  | .os => s.params.osCap.val
  | .sd => s.params.sdCap.val
  | .se => s.params.seCap.val

theorem State.buffer_eq_of_agreeOn {s t : State} {u : CodecUnit} (h : s.agreeOn u t) : t.buffer u = s.buffer u := by
  cases u with
  | os => exact h.1.2
  | sd => obtain ⟨⟨_, _, _, hsdm⟩, _⟩ := h; exact hsdm
  | se => exact h.1.2

theorem osAppend_read_outside {bs : List Byte} {s t : State} (h : osAppend bs s = .next t) {a : Nat}
    (ha : s.params.osCap.val ≤ a) : t.osm.read a = s.osm.read a := by
  rcases osAppend_cases h with ⟨_, rfl⟩ | ⟨hfit, rfl⟩
  · rfl
  · exact Memory.sameOutside_writeSeq _ _ _ _ (.inr (hfit.trans ha))

theorem seAppend_read_outside {bs : List Byte} {s t : State} (h : seAppend bs s = .next t) {a : Nat}
    (ha : s.params.seCap.val ≤ a) : t.sem.read a = s.sem.read a := by
  rcases seAppend_cases h with ⟨_, rfl⟩ | ⟨hfit, rfl⟩
  · rfl
  · exact Memory.sameOutside_writeSeq _ _ _ _ (.inr (hfit.trans ha))

theorem sdAppend_read_outside {v : Byte} {s t : State} (h : sdAppend v s = .next t) {a : Nat}
    (ha : s.params.sdCap.val ≤ a) : t.sdm.read a = s.sdm.read a := by
  rcases sdAppend_cases h with ⟨_, rfl⟩ | ⟨hfit, rfl⟩
  · rw [sdDiscard_sdm]
  · exact Memory.read_write_of_ne _ _ (hfit.trans_le ha).ne'

theorem SdAction.run_read_outside {x : SdAction} {s t : State} (h : x.run s = .next t) {a : Nat}
    (ha : s.params.sdCap.val ≤ a) : t.sdm.read a = s.sdm.read a := by
  cases x with
  | completeFrame => cases h; split <;> rfl
  | append v => exact sdAppend_read_outside h ha
  | enterEscaped | reportViolation => cases h; rfl

theorem readBack_buffer {m : Memory} {len idx : Half} {s t : State} (h : readBack m len idx s = .next t)
    (u : CodecUnit) : t.buffer u = s.buffer u := by
  rcases readBack_cases h with ⟨_, rfl⟩ | ⟨_, _, _, rfl⟩ <;> cases u <;> rfl

/-- A command writes its own unit's buffer inside the capacity only. -/
theorem exec_own_buffer_read_outside {i : Instr} {s t : State} (h : exec i s = .next t) {a : Nat}
    (ha : s.capacity (codecUnitOf i) ≤ a) :
    (t.buffer (codecUnitOf i)).read a = (s.buffer (codecUnitOf i)).read a := by
  cases i with
  | osBegin a u => exact osAppend_read_outside (s := { s with osCur := 0 }) h ha
  | osI32 _ | osF32 _ | osStr _ | osBlob _ => exact osAppend_read_outside h ha
  | sePush _ | seEnd => exact seAppend_read_outside h ha
  | osRead _ | sdRead _ | seRead _ => rw [readBack_buffer h]
  | sdPush c =>
    exact SdAction.run_read_outside (s := { s with sdEsc := .normal }) (by rwa [exec, execSdPush_eq_action] at h) ha
  | osStatus | sdStatus | seStatus | sdClear | seClear => cases h; rfl

/-- No command writes any buffer outside its capacity: its own by the capacity checks, the others not at all. -/
theorem exec_buffer_read_outside {i : Instr} {s t : State} (h : exec i s = .next t) {u : CodecUnit} {a : Nat}
    (ha : s.capacity u ≤ a) : (t.buffer u).read a = (s.buffer u).read a := by
  by_cases hu : u = codecUnitOf i
  · subst hu; exact exec_own_buffer_read_outside h ha
  · rw [State.buffer_eq_of_agreeOn (State.agreeOn_of_frameOf (commandsWriteOnlyTheirUnit i s t h) hu)]

/-- Settles O52: the statement, buffer by buffer. -/
theorem noWriteOutsideBuffers : Obligations.NoWriteOutsideBuffers :=
  fun _ _ _ h => ⟨fun _ => exec_buffer_read_outside h (u := .os), fun _ => exec_buffer_read_outside h (u := .sd),
    fun _ => exec_buffer_read_outside h (u := .se)⟩

/-! ## An overflow writes nothing (R61, R221) -/

/-- The bare response `OK` is not the response `BufferOverflow`. -/
theorem ok_ne_overflow : ([0x00] : List Byte) ≠ [0x01] := by decide

/-- A response of another status is no overflow, whatever its data. -/
theorem respond_ne_overflow {st : Status} {data : List Byte} {s t : State} (h : respond st data s = .next t)
    (hst : st.code ≠ 0x01) : t.resp ≠ [0x01] := by
  cases h; exact fun hr => hst (List.cons.inj hr).1

theorem readBack_ne_overflow {m : Memory} {len idx : Half} {s t : State} (h : readBack m len idx s = .next t) :
    t.resp ≠ [0x01] := by
  rcases readBack_cases h with ⟨_, rfl⟩ | ⟨_, _, _, rfl⟩ <;> exact fun hr => absurd (List.cons.inj hr).1 (by decide)

theorem osAppend_eq_of_overflow {bs : List Byte} {s t : State} (h : osAppend bs s = .next t) (hr : t.resp = [0x01]) :
    t = { s with resp := [0x01] } := by
  rcases osAppend_cases h with ⟨_, rfl⟩ | ⟨_, rfl⟩
  · rfl
  · exact absurd hr ok_ne_overflow

theorem seAppend_eq_of_overflow {bs : List Byte} {s t : State} (h : seAppend bs s = .next t) (hr : t.resp = [0x01]) :
    t = { s with resp := [0x01] } := by
  rcases seAppend_cases h with ⟨_, rfl⟩ | ⟨_, rfl⟩
  · rfl
  · exact absurd hr ok_ne_overflow

/-- In a legal state a full buffer holds no ready frame to drop: a dropped frame makes room for at least one byte. -/
theorem sdDiscard_eq_self_of_full {s : State} (hs : s.sdLegal) (hfull : (sdDiscard s).sdLen.toNat = s.params.sdCap.val) :
    sdDiscard s = s := by
  obtain ⟨hlen, hready⟩ := hs
  by_cases hr : s.sdReady = true
  · have hcap : s.params.sdCap.val = 0 := by rw [← hfull, sdDiscard_sdLen, if_pos hr]; rfl
    have hzero : s.sdLen = 0 := BitVec.eq_of_toNat_eq (Nat.le_zero.mp (hcap ▸ hlen))
    exact absurd hzero (hready hr)
  · rw [sdDiscard, if_neg hr]

theorem sdAppend_eq_of_overflow {v : Byte} {s t : State} (hs : s.sdLegal) (h : sdAppend v s = .next t)
    (hr : t.resp = [0x01]) : t = { s with resp := [0x01] } := by
  rcases sdAppend_cases h with ⟨hfull, rfl⟩ | ⟨_, rfl⟩
  · rw [sdDiscard_eq_self_of_full hs hfull]
  · exact absurd hr ok_ne_overflow

theorem SdAction.run_eq_of_overflow {x : SdAction} {s t : State} (hs : s.sdLegal) (h : x.run s = .next t)
    (hr : t.resp = [0x01]) : t = { s with resp := [0x01] } := by
  cases x with
  | append v => exact sdAppend_eq_of_overflow hs h hr
  | completeFrame | enterEscaped | reportViolation => exact absurd hr (respond_ne_overflow h (by decide))

/-- Settles O51: only the appends overflow, and each leaves the state it started from, which for `OS.BEGIN` has the
cursor at 0 and for `SD.PUSH` the escape state `Normal`. -/
theorem overflowWritesNothing : Obligations.OverflowWritesNothing := by
  intro i s t hs h hr
  cases i with
  | osBegin a u => exact osAppend_eq_of_overflow (s := { s with osCur := 0 }) h hr
  | osI32 _ | osF32 _ | osStr _ | osBlob _ => exact osAppend_eq_of_overflow h hr
  | sePush _ | seEnd => exact seAppend_eq_of_overflow h hr
  | sdPush c =>
    exact SdAction.run_eq_of_overflow (s := { s with sdEsc := .normal }) hs
      (by rwa [exec, execSdPush_eq_action] at h) hr
  | osRead _ | sdRead _ | seRead _ => exact absurd hr (readBack_ne_overflow h)
  | osStatus | sdStatus | seStatus | sdClear | seClear => exact absurd hr (respond_ne_overflow h (by decide))

/-! ## Reads have no side effects (R63) -/

theorem readBack_eq_resp {m : Memory} {len idx : Half} {s t : State} (h : readBack m len idx s = .next t) :
    t = { s with resp := t.resp } := by
  rcases readBack_cases h with ⟨_, rfl⟩ | ⟨_, _, _, rfl⟩ <;> rfl

/-- A command that changes the response only and does not read it answers the same when it is repeated. -/
theorem exec_repeat {i : Instr} {s t : State} (hblind : exec i { s with resp := t.resp } = exec i s)
    (ht : t = { s with resp := t.resp }) (h : exec i s = .next t) : exec i t = .next t :=
  calc exec i t = exec i { s with resp := t.resp } := congrArg (exec i) ht
    _ = exec i s := hblind
    _ = .next t := h

/-- Settles O50: these commands set the response port alone, and none of them reads it. -/
theorem readsHaveNoSideEffects : Obligations.ReadsHaveNoSideEffects := by
  intro i s t hi h
  have hframe : t = { s with resp := t.resp } := by
    rcases hi with ⟨idx, rfl | rfl | rfl⟩ | rfl | rfl | rfl
    iterate 3 exact readBack_eq_resp h
    iterate 3 cases h; rfl
  have hblind : exec i { s with resp := t.resp } = exec i s := by
    rcases hi with ⟨idx, rfl | rfl | rfl⟩ | rfl | rfl | rfl <;> rfl
  exact ⟨hframe, exec_repeat hblind hframe h⟩

/-! ## Reading back what was written (R54, R56) -/

theorem execAll_cons {i : Instr} {is : List Instr} {s t u : State} {rs : List (List Byte)} (h : exec i s = .next t)
    (hrest : execAll is t = some (rs, u)) : execAll (i :: is) s = some (t.resp :: rs, u) := by
  simp [execAll, h, hrest]

/-- `OS.READ idx` has the byte `b` to return: the index is below the cursor and `OSM` holds `b` there. -/
def State.osHolds (s : State) (idx : Half) (b : Byte) : Prop :=
  idx.toNat < s.osCur.toNat ∧ s.osm.read idx.toNat = some b

/-- A run of reads of the message returns its bytes in order: no read disturbs a later one. -/
theorem execAll_osReads {idxs : List Half} {bs : List Byte} {s : State} (h : List.Forall₂ s.osHolds idxs bs) :
    ∃ u, execAll (idxs.map .osRead) s = some (bs.map fun b => [0x00, b], u) := by
  induction idxs generalizing bs s with
  | nil => cases h; exact ⟨s, rfl⟩
  | cons idx idxs ih =>
    cases h with
    | cons hidx hrest =>
      obtain ⟨hlt, hread⟩ := hidx
      have hnext : exec (.osRead idx) s = _ := readBack_ok hlt hread
      obtain ⟨u, hu⟩ := ih (s := { s with resp := [0x00, _] }) hrest
      exact ⟨u, execAll_cons hnext hu⟩

/-- An appended byte can be read back at its offset. -/
theorem State.osAppended.osHolds {bs : List Byte} {s t : State} (h : s.osAppended bs t) {idx : Half} {k : Nat}
    {b : Byte} (hidx : idx.toNat = s.osCur.toNat + k) (hb : bs[k]? = some b) : t.osHolds idx b := by
  obtain ⟨_, hcur, hholds, _⟩ := h
  obtain ⟨hk, _⟩ := List.getElem?_eq_some_iff.mp hb
  exact ⟨by omega, by rw [hidx, hholds k hk, hb]⟩

/-- Settles O25: the write appends the four bytes of the value, and the reads return them in their order. -/
theorem integerReadsBackBigEndian : Obligations.IntegerReadsBackBigEndian := by
  intro w s hfit
  obtain ⟨t, ht, _, happ⟩ := osAppend_spec_fits (bs := beBytes 4 w.toNat) (by rwa [beBytes_length])
  rw [beBytes_four] at happ
  have hcap := s.params.osCap.isLt
  obtain ⟨u, hu⟩ := execAll_osReads
    (.cons (happ.osHolds (k := 0) rfl rfl)
      (.cons (happ.osHolds (idx := s.osCur + 1) (k := 1) (by bv_omega) rfl)
        (.cons (happ.osHolds (idx := s.osCur + 2) (k := 2) (by bv_omega) rfl)
          (.cons (happ.osHolds (idx := s.osCur + 3) (k := 3) (by bv_omega) rfl) .nil))))
  obtain ⟨hresp, _⟩ := happ
  exact ⟨u, hresp ▸ execAll_cons ht hu⟩

end Sys2Proof.Machine
end

section
/-! SUPPORT. The encoding family, the decoder (spec/30_encoding.md R71, R73, R77 to R80): a command's packet decodes to the
command, what decodes to a command is its packet, and a byte stream splits into packets in one way. -/

namespace Sys2Proof.Machine

/-! ## Length fields and sequences (R71) -/

theorem lengthBytes_eq (n : Nat) : lengthBytes n = beBytes 2 n := by
  simp [lengthBytes, beBytes]

/-- The length field of a sequence that fits states its length. -/
theorem beValue_take_encodeSequence {d : List Byte} (hd : fitsLength d = true) (cs : List Byte) :
    beValue ((encodeSequence d ++ cs).take 2) = d.length :=
  calc beValue ((encodeSequence d ++ cs).take 2) = beValue (beBytes 2 d.length) := rfl
    _ = d.length % 256 ^ 2 := beValue_beBytes 2 d.length
    _ = d.length := Nat.mod_eq_of_lt (fitsLength_iff.mp hd)

theorem drop_two_encodeSequence (d cs : List Byte) : (encodeSequence d ++ cs).drop 2 = d ++ cs := rfl

theorem drop_encodeSequence_append (d cs : List Byte) (k : Nat) :
    (encodeSequence d ++ cs).drop (2 + d.length + k) = cs.drop k := by
  rw [← Laws.encodeSequence_length d, List.drop_length_add_append]

theorem lengthField_eq_beValue_take {bs : List Byte} {n : Nat} (h : lengthField bs = some n) :
    beValue (bs.take 2) = n := by
  match bs, h with
  | _ :: _ :: _, h => exact Option.some.inj h

/-- Bytes that hold a length field and as many bytes as it states start with an encoded sequence. -/
theorem encodeSequence_of_lengthField {bs : List Byte} {n : Nat} (h : lengthField bs = some n)
    (hn : 2 + n ≤ bs.length) :
    fitsLength ((bs.drop 2).take n) = true ∧ encodeSequence ((bs.drop 2).take n) ++ bs.drop (2 + n) = bs := by
  match bs, h with
  | hi :: lo :: ds, h =>
    obtain rfl : beValue [hi, lo] = n := Option.some.inj h
    have hlt : beValue [hi, lo] < 65536 := (beValue_lt [hi, lo]).trans_eq (by norm_num)
    have hlen : (ds.take (beValue [hi, lo])).length = beValue [hi, lo] :=
      List.length_take_of_le (by simp only [List.length_cons] at hn; omega)
    have hfield : beBytes 2 (beValue [hi, lo]) = [hi, lo] := beBytes_beValue [hi, lo]
    have hdrop : (hi :: lo :: ds).drop 2 = ds := rfl
    rw [hdrop]
    refine ⟨fitsLength_iff.mpr (by rwa [hlen]), ?_⟩
    rw [encodeSequence, hlen, hfield, Nat.add_comm 2]
    simp

/-- The sequence that ends a packet: all that follows its length field. -/
theorem encodeSequence_drop_two {bs : List Byte} {n : Nat} (h : lengthField bs = some n) (hn : bs.length = 2 + n) :
    fitsLength (bs.drop 2) = true ∧ encodeSequence (bs.drop 2) = bs := by
  have hseq := encodeSequence_of_lengthField h hn.ge
  rwa [List.take_of_length_le (by rw [List.length_drop]; omega), List.drop_of_length_le hn.le, List.append_nil] at hseq

/-- The operand of a packet of format `S`. -/
theorem encodeSequence_of_sequenceLength {rest : List Byte}
    (h : (lengthField rest).map (3 + ·) = some (rest.length + 1)) :
    fitsLength (rest.drop 2) = true ∧ encodeSequence (rest.drop 2) = rest := by
  obtain ⟨n, hn, hsum⟩ := Option.map_eq_some_iff.mp h
  exact encodeSequence_drop_two hn (by omega)

/-! ## From the packet to the command (R73, R77) -/

theorem parseOperands_osBegin {a : List Byte} (ha : fitsLength a = true) (t : List Byte) :
    parseOperands .osBegin (encodeSequence a ++ encodeSequence t) =
      if noNul a && noNul t then .instr (.osBegin a t) else .illegal .nulInString := by
  have ht : (encodeSequence t).drop 2 = t := rfl
  simp only [parseOperands, beValue_take_encodeSequence ha, drop_two_encodeSequence, List.take_left,
    drop_encodeSequence_append, ht]

theorem parseOperands_osStr (d : List Byte) :
    parseOperands .osStr (encodeSequence d) =
      if noNul d then .instr (.osStr d) else .illegal .nulInString := rfl

/-- A field of `n` bytes holds every value of a register of that width (R78). -/
theorem ofNat_beValue_beBytes {w : Nat} (n : Nat) (v : BitVec w) (hw : 2 ^ w = 256 ^ n) :
    BitVec.ofNat w (beValue (beBytes n v.toNat)) = v := by
  rw [beValue_beBytes, ← hw, Nat.mod_eq_of_lt v.isLt, BitVec.ofNat_toNat, BitVec.setWidth_eq]

/-- A register of that width holds every value of the field (R78). -/
theorem beBytes_ofNat_beValue {w n : Nat} {bs : List Byte} (hn : bs.length = n) (hw : 2 ^ w = 256 ^ n) :
    beBytes n (BitVec.ofNat w (beValue bs)).toNat = bs := by
  subst hn
  rw [BitVec.toNat_ofNat, hw, Nat.mod_eq_of_lt (beValue_lt bs), beBytes_beValue]

theorem parseOperands_encodeOperands {i : Instr} (h : i.wellFormed = true) :
    parseOperands i.opcode (encodeOperands i) = .instr i := by
  cases i with
  | osBegin a t =>
    simp only [Instr.wellFormed, Bool.and_eq_true] at h
    obtain ⟨⟨ha, hna⟩, _, hnt⟩ := h
    exact (parseOperands_osBegin ha t).trans (if_pos (by rw [hna, hnt]; rfl))
  | osStr d =>
    obtain ⟨_, hnul⟩ := Bool.and_eq_true_iff.mp h
    exact (parseOperands_osStr d).trans (if_pos hnul)
  | osI32 w => exact congrArg (Decoded.instr ∘ .osI32) (ofNat_beValue_beBytes 4 w rfl)
  | osF32 w => exact congrArg (Decoded.instr ∘ .osF32) (ofNat_beValue_beBytes 4 w rfl)
  | osRead idx => exact congrArg (Decoded.instr ∘ .osRead) (ofNat_beValue_beBytes 2 idx rfl)
  | sdRead idx => exact congrArg (Decoded.instr ∘ .sdRead) (ofNat_beValue_beBytes 2 idx rfl)
  | seRead idx => exact congrArg (Decoded.instr ∘ .seRead) (ofNat_beValue_beBytes 2 idx rfl)
  | osBlob _ | sdPush _ | sePush _ => rfl
  | osStatus | sdClear | sdStatus | seEnd | seClear | seStatus => rfl

/-- The laws of the packet lengths, one per command, as one. -/
theorem packetLength_encode {i : Instr} (h : i.wellFormed = true) :
    packetLength? (encode i) = some (encode i).length := by
  cases i with
  | osBegin a t => exact Laws.PacketLength.osBegin a t h
  | osI32 w => exact Laws.PacketLength.osI32 w h
  | osF32 w => exact Laws.PacketLength.osF32 w h
  | osStr d => exact Laws.PacketLength.osStr d h
  | osBlob d => exact Laws.PacketLength.osBlob d h
  | osRead idx => exact Laws.PacketLength.osRead idx h
  | osStatus => exact Laws.PacketLength.osStatus h
  | sdPush b => exact Laws.PacketLength.sdPush b h
  | sdClear => exact Laws.PacketLength.sdClear h
  | sdRead idx => exact Laws.PacketLength.sdRead idx h
  | sdStatus => exact Laws.PacketLength.sdStatus h
  | sePush b => exact Laws.PacketLength.sePush b h
  | seEnd => exact Laws.PacketLength.seEnd h
  | seClear => exact Laws.PacketLength.seClear h
  | seRead idx => exact Laws.PacketLength.seRead idx h
  | seStatus => exact Laws.PacketLength.seStatus h

theorem packetLength_of_isPacket {p : List Byte} (h : isPacket p) : packetLength? p = some p.length := by
  rcases h with ⟨i, hi⟩ | ⟨why, hw⟩
  · exact packetLength_of_decode (by rw [hi]; exact nofun) (by rw [hi]; exact nofun)
  · exact packetLength_of_decode (by rw [hw]; exact nofun) (by rw [hw]; exact nofun)

/-- A packet whose length is right is parsed by its opcode's row. -/
theorem decode_encode_of_packetLength {i : Instr} (h : packetLength? (encode i) = some (encode i).length) :
    decode (encode i) = parseOperands i.opcode (encodeOperands i) :=
  (decode_complete h).trans (parsePacket_code _ _)

/-- Settles O1: the packet has the length that its first bytes state, and its operands parse to the command's. -/
theorem decodeOfEncodeIsCommand : Obligations.DecodeOfEncodeIsCommand :=
  fun _ h => (decode_encode_of_packetLength (packetLength_encode h)).trans (parseOperands_encodeOperands h)

/-- Settles O3: each packet is the encoding of its command. -/
theorem examplePacketsDecode : Obligations.ExamplePacketsDecode :=
  ⟨decodeOfEncodeIsCommand (.osBegin [0x2F, 0x66, 0x6F, 0x6F] [0x69]) rfl, decodeOfEncodeIsCommand (.osI32 42) rfl,
    decodeOfEncodeIsCommand (.osF32 0x3F800000) rfl, decodeOfEncodeIsCommand (.osBlob [0x01, 0x02, 0x03]) rfl,
    decodeOfEncodeIsCommand (.osRead 5) rfl, decodeOfEncodeIsCommand (.sdPush 0xC0) rfl,
    decodeOfEncodeIsCommand .sdStatus rfl, decodeOfEncodeIsCommand (.sePush 0xDB) rfl,
    decodeOfEncodeIsCommand (.seRead 1) rfl⟩

/-! ## From the bytes back to the command (R79) -/

/-- `rest` is how `i` is written after the opcode `o`, and `i` has a packet. -/
def isOperandsOf (o : Opcode) (rest : List Byte) (i : Instr) : Prop :=
  i.wellFormed = true ∧ i.opcode = o ∧ encodeOperands i = rest

theorem isOperandsOf_osBegin {rest : List Byte} {i : Instr}
    (hlen : packetLength? (Opcode.osBegin.code :: rest) = some (rest.length + 1))
    (h : parseOperands .osBegin rest = .instr i) : isOperandsOf .osBegin rest i := by
  simp only [packetLength?, formatOf_code, Opcode.format] at hlen
  cases hal : lengthField rest with
  | none => simp [hal] at hlen
  | some alen =>
    simp only [hal, Option.map_eq_some_iff] at hlen
    obtain ⟨tlen, htl, hsum⟩ := hlen
    have hdrop : (rest.drop (2 + alen)).length = 2 + tlen := by
      have := two_le_length_of_lengthField htl
      rw [List.length_drop] at this ⊢
      omega
    obtain ⟨ha, harest⟩ := encodeSequence_of_lengthField hal (by rw [List.length_drop] at hdrop; omega)
    obtain ⟨ht, htrest⟩ := encodeSequence_drop_two htl hdrop
    rw [List.drop_drop] at ht htrest
    simp only [parseOperands, lengthField_eq_beValue_take hal] at h
    split at h
    case isTrue hnul =>
      cases h
      obtain ⟨hna, hnt⟩ := Bool.and_eq_true_iff.mp hnul
      refine ⟨?_, rfl, ?_⟩
      · rw [Instr.wellFormed, ha, hna, ht, hnt]; rfl
      · rw [encodeOperands, htrest, harest]
    case isFalse => cases h

/-- What parses to a command is that command's packet. -/
theorem isOperandsOf_of_parseOperands {o : Opcode} {rest : List Byte} {i : Instr}
    (hlen : packetLength? (o.code :: rest) = some (rest.length + 1)) (h : parseOperands o rest = .instr i) :
    isOperandsOf o rest i := by
  cases o with
  | osBegin => exact isOperandsOf_osBegin hlen h
  | osI32 | osF32 =>
    cases h
    have hl : rest.length = 4 := by simpa [packetLength?, Opcode.format, eq_comm] using hlen
    exact ⟨rfl, rfl, beBytes_ofNat_beValue hl rfl⟩
  | osStr =>
    obtain ⟨hd, hrest⟩ := encodeSequence_of_sequenceLength hlen
    simp only [parseOperands] at h
    split at h
    case isTrue hnul =>
      cases h
      exact ⟨by rw [Instr.wellFormed, hd, hnul]; rfl, rfl, hrest⟩
    case isFalse => cases h
  | osBlob =>
    obtain ⟨hd, hrest⟩ := encodeSequence_of_sequenceLength hlen
    cases h
    exact ⟨hd, rfl, hrest⟩
  | osRead | sdRead | seRead =>
    cases h
    have hl : rest.length = 2 := by simpa [packetLength?, Opcode.format, eq_comm] using hlen
    exact ⟨rfl, rfl, beBytes_ofNat_beValue hl rfl⟩
  | sdPush | sePush =>
    cases h
    have hl : rest.length = 1 := by simpa [packetLength?, Opcode.format, eq_comm] using hlen
    obtain ⟨b, rfl⟩ := List.length_eq_one_iff.mp hl
    exact ⟨rfl, rfl, rfl⟩
  | osStatus | sdClear | sdStatus | seEnd | seClear | seStatus =>
    cases h
    have hl : rest.length = 0 := by simpa [packetLength?, Opcode.format, eq_comm] using hlen
    exact ⟨rfl, rfl, (List.length_eq_zero_iff.mp hl).symm⟩

/-- Settles O2: a complete packet is an opcode of the map and the operands that its format gives. -/
theorem everyPacketHasOneMeaning : Obligations.EveryPacketHasOneMeaning := by
  intro bs i h
  have hlen := packetLength_of_isPacket (.inl ⟨i, h⟩)
  have hparse := (decode_complete hlen).symm.trans h
  match bs, hparse, hlen with
  | op :: rest, hparse, hlen =>
    simp only [parsePacket] at hparse
    split at hparse
    case h_1 => cases hparse
    case h_2 o ho =>
      obtain rfl := Opcode.code_of_ofByte ho
      obtain ⟨hwf, hop, hrest⟩ := isOperandsOf_of_parseOperands hlen hparse
      exact ⟨hwf, by rw [encode, hop, hrest]⟩

/-! ## Splitting a byte stream (R73) -/

theorem not_isPacket_of_incomplete {bs : List Byte} (h : decode bs = .incomplete) : ¬ isPacket bs := by
  rintro (⟨_, hi⟩ | ⟨_, hw⟩)
  · rw [h] at hi; cases hi
  · rw [h] at hw; cases hw

/-- Bytes that start with a packet are not still waiting for its end. -/
theorem decode_packet_append_ne_incomplete {p : List Byte} (hp : isPacket p) (cs : List Byte) :
    decode (p ++ cs) ≠ .incomplete := by
  intro h
  have hlt := decode_incomplete_iff.mp h _ (packetLength_append cs (packetLength_of_isPacket hp))
  rw [List.length_append] at hlt
  omega

/-- Two packets that start the same bytes are one packet: its first bytes state its length. -/
theorem packet_append_inj {p q cs ds : List Byte} (hp : isPacket p) (hq : isPacket q) (h : p ++ cs = q ++ ds) :
    p = q ∧ cs = ds := by
  have hl := packetLength_append cs (packetLength_of_isPacket hp)
  rw [h, packetLength_append ds (packetLength_of_isPacket hq)] at hl
  exact List.append_inj h (Option.some.inj hl).symm

/-- The stream `bs` is the packets `ps` and then the incomplete packet `rest`. -/
def splitsInto (bs : List Byte) (ps : List (List Byte)) (rest : List Byte) : Prop :=
  bs = ps.flatten ++ rest ∧ (∀ p ∈ ps, isPacket p) ∧ decode rest = .incomplete

/-- One more byte completes the packet at the end of the stream, or goes on with it. -/
theorem splitsInto_append {bs rest : List Byte} {ps : List (List Byte)} (h : splitsInto bs ps rest) (b : Byte) :
    ∃ ps' rest', splitsInto (bs ++ [b]) ps' rest' := by
  obtain ⟨rfl, hps, hrest⟩ := h
  by_cases hp : isPacket (rest ++ [b])
  · refine ⟨ps ++ [rest ++ [b]], [], by simp, ?_, decode_nil⟩
    exact List.forall_mem_append.mpr ⟨hps, List.forall_mem_singleton.mpr hp⟩
  · exact ⟨ps, rest ++ [b], List.append_assoc _ _ _, hps, decode_append_incomplete hrest hp⟩

theorem exists_splitsInto (bs : List Byte) : ∃ ps rest, splitsInto bs ps rest := by
  induction bs using List.reverseRecOn with
  | nil => exact ⟨[], [], rfl, by simp, decode_nil⟩
  | append_singleton bs b ih =>
    obtain ⟨_, _, h⟩ := ih
    exact splitsInto_append h b

theorem splitsInto_nil_iff {bs rest : List Byte} :
    splitsInto bs [] rest ↔ bs = rest ∧ decode rest = .incomplete := by
  simp [splitsInto]

theorem splitsInto_cons_iff {bs p rest : List Byte} {ps : List (List Byte)} :
    splitsInto bs (p :: ps) rest ↔ isPacket p ∧ ∃ bs', bs = p ++ bs' ∧ splitsInto bs' ps rest := by
  constructor
  · rintro ⟨rfl, hps, hrest⟩
    obtain ⟨hp, hps⟩ := List.forall_mem_cons.mp hps
    exact ⟨hp, ps.flatten ++ rest, by simp, rfl, hps, hrest⟩
  · rintro ⟨hp, _, rfl, rfl, hps, hrest⟩
    exact ⟨by simp, List.forall_mem_cons.mpr ⟨hp, hps⟩, hrest⟩

theorem splitsInto_unique {bs rest rest' : List Byte} {ps ps' : List (List Byte)} (h : splitsInto bs ps rest)
    (h' : splitsInto bs ps' rest') : ps' = ps ∧ rest' = rest := by
  induction ps generalizing bs ps' with
  | nil =>
    obtain ⟨rfl, hrest⟩ := splitsInto_nil_iff.mp h
    cases ps' with
    | nil => exact ⟨rfl, (splitsInto_nil_iff.mp h').1.symm⟩
    | cons q qs =>
      obtain ⟨hq, cs, rfl, _⟩ := splitsInto_cons_iff.mp h'
      exact absurd hrest (decode_packet_append_ne_incomplete hq cs)
  | cons p ps ih =>
    obtain ⟨hp, cs, rfl, hcs⟩ := splitsInto_cons_iff.mp h
    cases ps' with
    | nil =>
      obtain ⟨rfl, hrest⟩ := splitsInto_nil_iff.mp h'
      exact absurd hrest (decode_packet_append_ne_incomplete hp cs)
    | cons q qs =>
      obtain ⟨hq, ds, heq, hds⟩ := splitsInto_cons_iff.mp h'
      obtain ⟨rfl, rfl⟩ := packet_append_inj hp hq heq
      obtain ⟨rfl, rfl⟩ := ih hcs hds
      exact ⟨rfl, rfl⟩

/-- Settles O4: a split is built byte by byte, and its packets are found again one by one from the front. -/
theorem streamSplitsIntoPackets : Obligations.StreamSplitsIntoPackets := by
  intro bs
  obtain ⟨ps, rest, hbs, hps, hrest⟩ := exists_splitsInto bs
  exact ⟨ps, rest, hbs, hps, hrest, fun _ _ hbs' hps' hrest' =>
    splitsInto_unique ⟨hbs, hps, hrest⟩ ⟨hbs', hps', hrest'⟩⟩

end Sys2Proof.Machine
end

section
/-! SUPPORT. The encoding family, the ports (spec/30_encoding.md R70, R72, R74, R76, R77; 60_exceptions.md R236): a packet's last
byte executes it, illegal packets respond `03`, a waiting response holds the next command back, and what every response
looks like. A step is taken apart by the laws of the port. -/

namespace Sys2Proof.Machine

/-! ## A complete packet executes in the step that takes its last byte (R72, R76, R77) -/

/-- Settles O7: with no response waiting the block takes the byte, and the packet's command runs. -/
theorem stepRunsDecodedCommand : Obligations.StepRunsDecodedCommand :=
  fun _ _ _ _ harr hresp hdec => (step_takes harr (.inl hresp)).trans (acceptByte_instr hdec)

theorem step_illegal {s : State} {b : Byte} {rest : List Byte} {why : Illegal} (harr : s.arrives b rest)
    (hresp : s.resp = []) (hdec : decode (s.cmdBuf ++ [b]) = .illegal why) :
    step s = .next { s with port := rest, cmdBuf := [], resp := [0x03] } :=
  (step_takes harr (.inl hresp)).trans (acceptByte_illegal hdec)

theorem step_incomplete {s : State} {b : Byte} {rest : List Byte} (harr : s.arrives b rest)
    (hdec : decode (s.cmdBuf ++ [b]) = .incomplete) :
    step s = .next { s with port := rest, cmdBuf := s.cmdBuf ++ [b] } :=
  have hnp := not_isPacket_of_incomplete hdec
  (step_takes harr (.inr hnp)).trans (acceptByte_waits hnp)

/-! ## Unassigned opcodes (R76) -/

theorem decode_unassigned_iff {op : Byte} :
    decode [op] = .illegal .unassignedOpcode ↔ Opcode.ofByte op = none := by
  constructor
  · intro h
    rw [decode_complete (packetLength_of_isPacket (.inr ⟨_, h⟩)), parsePacket] at h
    cases ho : Opcode.ofByte op with
    | none => rfl
    | some o => rw [ho] at h; cases o <;> cases h
  · intro ho
    have hlen : packetLength? [op] = some [op].length := by simp [packetLength?, formatOf, ho]
    rw [decode_complete hlen, parsePacket, ho]

/-- R76: the opcodes that no row of the map has. -/
theorem ofByte_eq_none_iff {op : Byte} :
    Opcode.ofByte op = none ↔
      op ≤ 0x0F ∨ (0x15 ≤ op ∧ op ≤ 0x1D) ∨ (0x22 ≤ op ∧ op ≤ 0x2D) ∨ (0x33 ≤ op ∧ op ≤ 0x3D) ∨ 0x40 ≤ op := by
  have hrows : Opcode.ofByte op = none ↔ ∀ c ∈ Opcode.all.map Opcode.code, c ≠ op := by
    simp [Opcode.ofByte]
  rw [hrows]
  simp only [Opcode.all, List.cons_append, List.nil_append, List.map_cons, List.map_nil, Opcode.code,
    List.forall_mem_cons, List.not_mem_nil, false_imp_iff, implies_true, and_true, ne_eq]
  bv_omega

/-- The bytes that are opcodes of the map are the codes of its rows. -/
theorem mem_assigned_iff {n : Nat} :
    n ∈ (List.range 256).filter (fun n => !decide (decode [BitVec.ofNat 8 n] = .illegal .unassignedOpcode)) ↔
      n ∈ Opcode.all.map (·.code.toNat) := by
  simp only [List.mem_filter, List.mem_range, Bool.not_eq_true', decide_eq_false_iff_not, decode_unassigned_iff,
    List.mem_map]
  constructor
  · rintro ⟨hn, hne⟩
    obtain ⟨o, ho⟩ := Option.ne_none_iff_exists'.mp hne
    have hcode := Opcode.code_of_ofByte ho
    exact ⟨o, List.mem_of_find?_eq_some ho, by rw [hcode, BitVec.toNat_ofNat, Nat.mod_eq_of_lt hn]⟩
  · rintro ⟨o, _, rfl⟩
    exact ⟨o.code.isLt, by simp⟩

/-- Of the 256 bytes the 16 codes are assigned, and the rest is unassigned. -/
theorem length_unassigned :
    ((List.range 256).filter fun n => decode [BitVec.ofNat 8 n] = .illegal .unassignedOpcode).length = 240 := by
  have hcodes := ((List.perm_ext_iff_of_nodup (List.nodup_range.filter _) (by decide)).mpr
    fun _ => mem_assigned_iff).length_eq
  have hsum := List.length_eq_length_filter_add (l := List.range 256)
    fun n => decide (decode [BitVec.ofNat 8 n] = .illegal .unassignedOpcode)
  rw [hcodes, List.length_range] at hsum
  exact Nat.add_right_cancel hsum.symm

/-- Settles O5: an unassigned opcode has no row, which fixes its packet's length and what the decoder says of it. -/
theorem unassignedOpcodesAreIllegal : Obligations.UnassignedOpcodesAreIllegal := by
  refine ⟨fun op => (decode_unassigned_iff.trans ofByte_eq_none_iff).symm, length_unassigned, ?_⟩
  intro s op rest harr hbuf hresp hdec
  rw [step_illegal (why := .unassignedOpcode) harr hresp (by rwa [hbuf])]
  simp only [hbuf]

/-! ## Strings with NUL (R77) -/

/-- `OS.STR` and `OS.BLOB` have the same format. -/
theorem packetLength_encode_osStr {d : List Byte} (hd : fitsLength d = true) :
    packetLength? (encode (.osStr d)) = some (encode (.osStr d)).length :=
  packetLength_encode (i := .osBlob d) hd

theorem packetLength_encode_osBegin {a t : List Byte} (ha : fitsLength a = true) (ht : fitsLength t = true) :
    packetLength? (encode (.osBegin a t)) = some (encode (.osBegin a t)).length := by
  have htl : lengthField (encodeSequence t) = some t.length := by
    simpa using Laws.lengthField_encodeSequence ht []
  have hdrop := drop_encodeSequence_append a (encodeSequence t) 0
  rw [Nat.add_zero, List.drop_zero] at hdrop
  simp only [encode, Instr.opcode, encodeOperands, packetLength?, formatOf_code, Opcode.format,
    Laws.lengthField_encodeSequence ha, hdrop, htl, Option.map_some, List.length_cons, List.length_append,
    Laws.encodeSequence_length]
  congr 1; omega

/-- What the decoder says of any `OS.STR` packet as R71 writes it (R77). -/
theorem decode_osStr_packet {d : List Byte} (hd : d.length < 65536) :
    decode (0x13 :: lengthBytes d.length ++ d) = if 0x00 ∈ d then .illegal .nulInString else .instr (.osStr d) := by
  rw [lengthBytes_eq]
  refine (decode_encode_of_packetLength (packetLength_encode_osStr (fitsLength_iff.mpr hd))).trans ?_
  refine (parseOperands_osStr d).trans ?_
  simp only [noNul_iff, ite_not]

/-- What the decoder says of any `OS.BEGIN` packet as R71 writes it (R77). -/
theorem decode_osBegin_packet {a t : List Byte} (ha : a.length < 65536) (ht : t.length < 65536) :
    decode (0x10 :: lengthBytes a.length ++ a ++ lengthBytes t.length ++ t) =
      if 0x00 ∈ a ∨ 0x00 ∈ t then .illegal .nulInString else .instr (.osBegin a t) := by
  have hfit := fitsLength_iff.mpr ha
  have henc : 0x10 :: lengthBytes a.length ++ a ++ lengthBytes t.length ++ t = encode (.osBegin a t) := by
    rw [lengthBytes_eq, lengthBytes_eq, List.append_assoc]; rfl
  rw [henc, decode_encode_of_packetLength (packetLength_encode_osBegin hfit (fitsLength_iff.mpr ht))]
  refine (parseOperands_osBegin hfit t).trans ?_
  simp only [Bool.and_eq_true, noNul_iff, ← not_or, ite_not]

theorem decode_osBlob_packet {d : List Byte} (hd : d.length < 65536) :
    decode (0x14 :: lengthBytes d.length ++ d) = .instr (.osBlob d) := by
  rw [lengthBytes_eq]
  exact decodeOfEncodeIsCommand (.osBlob d) (fitsLength_iff.mpr hd)

theorem wordBytes_eq (w : Word) : wordBytes w = beBytes 4 w.toNat := (beBytes_four w).symm

theorem indexBytes_eq (idx : Half) : indexBytes idx = beBytes 2 idx.toNat := (beBytes_two idx).symm

/-- Settles O6: only the two rows with C strings can refuse an operand, and a step answers a refused packet by `03`. -/
theorem stringOperandsWithNulAreIllegal : Obligations.StringOperandsWithNulAreIllegal := by
  refine ⟨fun a t ha ht hnul => ?_, fun d hd hnul => ?_, fun d hd => decode_osBlob_packet hd, fun b => ⟨?_, ?_⟩,
    fun w => ?_, fun idx => ?_, fun s idx => ⟨readBack_outOfRange, readBack_outOfRange, readBack_outOfRange⟩,
    fun _ _ _ _ => step_illegal⟩
  · rw [decode_osBegin_packet ha ht, if_pos hnul]
  · rw [decode_osStr_packet hd, if_pos hnul]
  · exact decodeOfEncodeIsCommand (.sdPush b) rfl
  · exact decodeOfEncodeIsCommand (.sePush b) rfl
  · rw [wordBytes_eq]
    exact ⟨decodeOfEncodeIsCommand (.osI32 w) rfl, decodeOfEncodeIsCommand (.osF32 w) rfl⟩
  · rw [indexBytes_eq]
    exact ⟨decodeOfEncodeIsCommand (.osRead idx) rfl, decodeOfEncodeIsCommand (.sdRead idx) rfl,
      decodeOfEncodeIsCommand (.seRead idx) rfl⟩

/-! ## A packet arriving byte by byte (R72) -/

/-- Settles O8: the block takes a byte that completes nothing at any time; with no byte left it is a silent host's
turn. -/
theorem incompletePacketWaits : Obligations.IncompletePacketWaits :=
  ⟨fun _ _ _ => step_incomplete, fun _ hport hhost =>
    (step_hostTurn (.inr (.inl hport))).trans (hostTurn_silent hhost)⟩

/-- A packet cut short is an incomplete packet (R73). -/
theorem decode_take_incomplete {p : List Byte} (hp : isPacket p) {n : Nat} (hn : n < p.length) :
    decode (p.take n) = .incomplete := by
  refine decode_incomplete_iff.mpr fun m hm => ?_
  have hp' := packetLength_append (p.drop n) hm
  rw [List.take_append_drop, packetLength_of_isPacket hp] at hp'
  obtain rfl := Option.some.inj hp'
  rw [List.length_take_of_le hn.le]
  exact hn

theorem runSteps_succ {n : Nat} {s t : State} (h : runSteps n s = .next t) : runSteps (n + 1) s = step t := by
  induction n generalizing s with
  | zero =>
    cases h
    rw [runSteps]
    cases step t <;> rfl
  | succ n ih =>
    rw [runSteps] at h ⊢
    cases hs : step s with
    | next u =>
      rw [hs] at h
      exact ih h
    | fault f => rw [hs] at h; cases h
    | refused r => rw [hs] at h; cases h

/-- The block has taken `n` bytes of the packet `p`, which wait in `CMD_BUF`; the others are on the command port. -/
def State.receiving (s : State) (p rest : List Byte) (n : Nat) : State :=
  { s with port := p.drop n ++ rest, cmdBuf := p.take n }

theorem State.receiving_arrives {s : State} (hreset : s.resetAsserted = false) {p : List Byte} (rest : List Byte)
    {n : Nat} (hn : n < p.length) : (s.receiving p rest n).arrives p[n] (p.drop (n + 1) ++ rest) :=
  ⟨by rw [receiving, List.drop_eq_getElem_cons hn]; rfl, hreset⟩

theorem State.receiving_cmdBuf (s : State) {p : List Byte} (rest : List Byte) {n : Nat} (hn : n < p.length) :
    (s.receiving p rest n).cmdBuf ++ [p[n]] = p.take (n + 1) :=
  List.take_append_getElem hn

/-- Before the last byte of a packet every step takes one more byte and changes nothing else. -/
theorem runSteps_receiving {p rest : List Byte} {s : State} (hp : isPacket p) (hbuf : s.cmdBuf = [])
    (hreset : s.resetAsserted = false) (hport : s.port = p ++ rest) {n : Nat} (hn : n < p.length) :
    runSteps n s = .next (s.receiving p rest n) := by
  induction n with
  | zero => rw [State.receiving, List.drop_zero, List.take_zero, ← hport, ← hbuf]; rfl
  | succ n ih =>
    have hlt := Nat.lt_of_succ_lt hn
    have hbytes := s.receiving_cmdBuf rest hlt
    rw [runSteps_succ (ih hlt), step_incomplete (State.receiving_arrives hreset rest hlt), hbytes]
    · rfl
    · rw [hbytes]; exact decode_take_incomplete hp hn

/-- Settles O9: every byte but the last waits, and the last completes the packet in `CMD_BUF`. -/
theorem commandExecutesAtLastByte : Obligations.CommandExecutesAtLastByte := by
  intro i s rest hwf hbuf hresp hreset hport
  have hdec := decodeOfEncodeIsCommand i hwf
  have hwaits : ∀ n, n < (encode i).length → runSteps n s = .next (s.receiving (encode i) rest n) :=
    fun n => runSteps_receiving (.inl ⟨i, hdec⟩) hbuf hreset hport
  refine ⟨hwaits, ?_⟩
  obtain ⟨n, hn⟩ : ∃ n, (encode i).length = n + 1 := ⟨_, rfl⟩
  have hlt : n < (encode i).length := by omega
  have hlast : (s.receiving (encode i) rest n).cmdBuf ++ [(encode i)[n]] = encode i := by
    rw [State.receiving_cmdBuf, ← hn, List.take_length]
  rw [hn, runSteps_succ (hwaits n hlt), stepRunsDecodedCommand _ _ _ i (State.receiving_arrives hreset rest hlt) hresp
    (hlast.symm ▸ hdec), ← hn, List.drop_length, hbuf]
  rfl

/-- A placed packet's last byte arrives, and the bytes before it are in `CMD_BUF`. -/
theorem placePacket_arrives {p : List Byte} (hp : p ≠ []) (s : State) :
    (placePacket p s).arrives (p.getLast hp) s.port ∧ (placePacket p s).cmdBuf ++ [p.getLast hp] = p :=
  ⟨⟨by rw [placePacket_port, List.getLast?_eq_some_getLast hp]; rfl, rfl⟩, List.dropLast_append_getLast hp⟩

theorem decode_tablePacket_of_decodeTableWord {nbits w : Nat} {i : Instr} (h : decodeTableWord nbits w = some i) :
    decode (tablePacket nbits w) = .instr i := by
  unfold decodeTableWord at h
  split at h
  case h_1 j hj => rw [hj, Option.some.inj h]
  case h_2 => cases h

/-- Settles O10: the placed packet's last byte arrives with no response waiting. -/
theorem placedWordRunsNext : Obligations.PlacedWordRunsNext := by
  intro s nbits w i hword
  have hdec := decode_tablePacket_of_decodeTableWord hword
  have hne : tablePacket nbits w ≠ [] := fun h0 => by rw [h0] at hdec; cases hdec
  obtain ⟨harr, hbuf⟩ := placePacket_arrives hne s
  exact stepRunsDecodedCommand _ _ _ i harr rfl (hbuf.symm ▸ hdec)

/-! ## The host's turn (R70, R74) -/

theorem step_hostAct {s : State} {act : HostAct} {later : List HostAct} (hwait : s.portWaits)
    (hhost : s.host = act :: later) : step s = hostStep act { s with host := later } :=
  (step_hostTurn hwait).trans (hostTurn_act hhost)

/-- Settles O12: the host's act takes the first byte of the response. -/
theorem responseBytesGoOutInOrder : Obligations.ResponseBytesGoOutInOrder :=
  fun _ _ _ _ hwait hhost hreset hresp => (step_hostAct hwait hhost).trans (takeByte_goes hreset hresp)

/-- Settles O57: the host's act appends the byte to the port. -/
theorem sentByteQueuesOnPort : Obligations.SentByteQueuesOnPort :=
  fun _ _ _ hwait hhost => step_hostAct hwait hhost

/-- What an act of the host leaves alone while reset is not asserted: the units, `CMD_BUF`, and the order of the bytes
on both ports. -/
def State.onlyPortsMove (s t : State) : Prop :=
  s.sameOs t ∧ s.sameSd t ∧ s.sameSe t ∧ t.cmdBuf = s.cmdBuf ∧ s.port <+: t.port ∧ t.resp <:+ s.resp

theorem State.onlyPortsMove_with (s : State) {port resp : List Byte} (asserted : Bool) (out : List Byte)
    (hport : s.port <+: port) (hresp : resp <:+ s.resp) :
    s.onlyPortsMove { s with port := port, resp := resp, resetAsserted := asserted, out := out } :=
  ⟨⟨rfl, rfl⟩, ⟨rfl, rfl, rfl, rfl⟩, ⟨rfl, rfl⟩, rfl, hport, hresp⟩

/-- R250: releasing a reset that is not asserted. -/
theorem driveReset_idle {s : State} (h : s.resetAsserted = false) : driveReset false s = .next s := by
  simp [driveReset, h]

/-- R250, R251: releasing an asserted reset. -/
theorem driveReset_releases {s : State} (h : s.resetAsserted = true) :
    driveReset false s = .next { State.resetFor s.params with port := s.port, host := s.host, out := s.out } := by
  simp [driveReset, h]

theorem hostStep_onlyPortsMove {s : State} (hreset : s.resetAsserted = false) (act : HostAct) :
    ∃ t, hostStep act s = .next t ∧ s.onlyPortsMove t := by
  cases act with
  | send b => exact ⟨_, rfl, s.onlyPortsMove_with _ _ (List.prefix_append _ _) List.suffix_rfl⟩
  | take =>
    cases hr : s.resp with
    | nil => exact ⟨s, takeByte_empty (.inr hr), s.onlyPortsMove_with _ _ List.prefix_rfl List.suffix_rfl⟩
    | cons b bs =>
      exact ⟨_, takeByte_goes hreset hr, s.onlyPortsMove_with _ _ List.prefix_rfl (hr ▸ List.suffix_cons b bs)⟩
  | resetLine level =>
    cases level with
    | true => exact ⟨_, rfl, s.onlyPortsMove_with _ _ List.prefix_rfl List.suffix_rfl⟩
    | false => exact ⟨s, driveReset_idle hreset, s.onlyPortsMove_with _ _ List.prefix_rfl List.suffix_rfl⟩

/-- Settles O11: the packet's last byte has to wait, so it is the host's turn, and no act of the host reaches a unit
while reset is not asserted. -/
theorem commandWaitsForPendingResponse : Obligations.CommandWaitsForPendingResponse := by
  intro s b rest ⟨hport, hreset⟩ hresp hpacket
  have hwait : s.portWaits := .inr (.inr ⟨b, rest, hport, hresp, hpacket⟩)
  refine ⟨fun hhost => (step_hostTurn hwait).trans (hostTurn_silent hhost), fun hne => ?_⟩
  obtain ⟨act, later, hhost⟩ := List.exists_cons_of_ne_nil hne
  rw [step_hostAct hwait hhost]
  exact hostStep_onlyPortsMove (s := { s with host := later }) hreset act

/-! ## The layout of the responses (R74) -/

theorem osAppend_resp_status {bs : List Byte} {s t : State} (h : osAppend bs s = .next t) : ∃ st, t.resp = [st] := by
  rcases osAppend_cases h with ⟨_, rfl⟩ | ⟨_, rfl⟩ <;> exact ⟨_, rfl⟩

theorem seAppend_resp_status {bs : List Byte} {s t : State} (h : seAppend bs s = .next t) : ∃ st, t.resp = [st] := by
  rcases seAppend_cases h with ⟨_, rfl⟩ | ⟨_, rfl⟩ <;> exact ⟨_, rfl⟩

theorem SdAction.run_resp_status {x : SdAction} {s t : State} (h : x.run s = .next t) : ∃ st, t.resp = [st] := by
  cases x with
  | append v => rcases sdAppend_cases h with ⟨_, rfl⟩ | ⟨_, rfl⟩ <;> exact ⟨_, rfl⟩
  | completeFrame | enterEscaped | reportViolation => cases h; exact ⟨_, rfl⟩

theorem readBack_resp_data {m : Memory} {len idx : Half} {s t : State} (h : readBack m len idx s = .next t) :
    ∃ st d, t.resp = [st, d] ∧ (st ≠ 0x00 → d = 0x00) := by
  rcases readBack_cases h with ⟨_, rfl⟩ | ⟨_, v, _, rfl⟩
  · exact ⟨_, _, rfl, fun _ => rfl⟩
  · exact ⟨_, v, rfl, fun hne => absurd rfl hne⟩

/-- R163: the flags byte. -/
theorem sdFlags_bits (esc : EscState) (ready : Bool) :
    (sdFlags esc ready).getLsbD 0 = ready ∧ (sdFlags esc ready).getLsbD 1 = decide (esc = .escaped) ∧
      (sdFlags esc ready).extractLsb' 2 6 = 0 := by
  cases esc <;> cases ready <;> decide

/-- Settles O13: the appends and `SD.PUSH` respond a bare status, the reads a byte too, the STATUS commands the
registers. -/
theorem responseLayoutByOpcode : Obligations.ResponseLayoutByOpcode := by
  intro i s t h
  cases i with
  | osBegin _ _ | osI32 _ | osF32 _ | osStr _ | osBlob _ => exact osAppend_resp_status h
  | sePush _ | seEnd => exact seAppend_resp_status h
  | osRead _ | sdRead _ | seRead _ => exact readBack_resp_data h
  | sdPush c =>
    rw [exec, execSdPush_eq_action] at h
    exact SdAction.run_resp_status h
  | osStatus | seStatus => cases h; exact ⟨_, rfl⟩
  | sdStatus => cases h; exact ⟨_, _, rfl, sdFlags_bits _ _⟩
  | sdClear | seClear => cases h; exact ⟨_, rfl⟩

/-! ## Where a step stops (R236) -/

theorem hostStep_next (act : HostAct) (s : State) : ∃ t, hostStep act s = .next t := by
  cases hreset : s.resetAsserted with
  | false =>
    obtain ⟨t, ht, _⟩ := hostStep_onlyPortsMove hreset act
    exact ⟨t, ht⟩
  | true =>
    cases act with
    | send b => exact ⟨_, rfl⟩
    | take => exact ⟨s, takeByte_empty (.inl hreset)⟩
    | resetLine level =>
      cases level with
      | true => exact ⟨_, rfl⟩
      | false => exact ⟨_, driveReset_releases hreset⟩

theorem acceptByte_next {s : State} (hs : s.Inv) (b : Byte) : ∃ t, acceptByte b s = .next t := by
  by_cases hp : isPacket (s.cmdBuf ++ [b])
  · rcases hp with ⟨i, hi⟩ | ⟨why, hw⟩
    · rw [acceptByte_instr hi]
      exact legalStatesStopNoCommand i _ (hs.with_cmdBuf decode_nil)
    · exact ⟨_, acceptByte_illegal hw⟩
  · exact ⟨_, acceptByte_waits hp⟩

/-- Settles O47: a byte that is taken stops nothing under the invariant, nor does an act of the host. -/
theorem stepStopsOnlyOnHost : Obligations.StepStopsOnlyOnHost := by
  intro s hs
  rcases step_cases s with ⟨b, rest, _, _, hstep⟩ | ⟨hwait, hstep⟩
  · obtain ⟨t, ht⟩ := acceptByte_next (hs.with_surroundings rest s.resetAsserted s.host s.out) b
    exact .inl ⟨t, hstep.trans ht⟩
  · cases hhost : s.host with
    | nil => exact .inr ⟨hstep.trans (hostTurn_silent hhost), rfl, hwait⟩
    | cons act later =>
      obtain ⟨t, ht⟩ := hostStep_next act { s with host := later }
      exact .inl ⟨t, (step_hostAct hwait hhost).trans ht⟩

end Sys2Proof.Machine
end

section
/-! SUPPORT. The encoding family, the assembler (spec/30_encoding.md R81): what the pseudo-instructions expand to. -/

namespace Sys2Proof.Machine

/-! ## The pseudo-instructions over bytes (R81) -/

theorem byteList_byteTokens {c : List Char} {cs : List (List Char)} {bs : List Byte}
    (h : (c :: cs).map (parseNat 256) = bs.map fun b => some b.toNat) : byteList (byteTokens c cs) = some bs := by
  induction cs generalizing c bs with
  | nil =>
    obtain ⟨b, rfl⟩ := List.length_eq_one_iff.mp (by simpa using (congrArg List.length h).symm)
    have hc : parseNat 256 c = some b.toNat := (List.cons.inj h).1
    rw [show byteTokens c [] = [.word c] from rfl, byteList, hc, Option.map_some, BitVec.ofNat_toNat,
      BitVec.setWidth_eq]
  | cons c' cs ih =>
    match bs, h with
    | b :: bs, h =>
      obtain ⟨hc, hcs⟩ := List.cons.inj h
      rw [show byteTokens c (c' :: cs) = .word c :: .comma :: byteTokens c' cs from rfl]
      simp only [byteList, hc, ih hcs, BitVec.ofNat_toNat, BitVec.setWidth_eq]

/-- Settles O58: the tokens are read as the bytes in their order. -/
theorem bytePseudosPushInOrder : Obligations.BytePseudosPushInOrder := by
  intro c cs bs h
  have hbytes := byteList_byteTokens h
  exact ⟨by rw [expand, hbytes]; rfl, by rw [expand, hbytes]; rfl, by rw [expand, hbytes]; rfl⟩

/-! ## `OS.MSG` (R81) -/

/-- The values are read exactly where each stands after its comma. -/
theorem msgValues_eq_some_iff {ts vs : List Token} :
    msgValues ts = some vs ↔ ts = vs.flatMap fun v => [.comma, v] := by
  fun_induction msgValues ts generalizing vs with
  | case1 => cases vs <;> simp
  | case2 v ts ih =>
    cases vs with
    | nil => simp
    | cons w ws =>
      simp only [Option.map_eq_some_iff, ih, List.flatMap_cons, List.cons_append, List.nil_append, List.cons.injEq,
        true_and]
      constructor
      · rintro ⟨_, hts, rfl, rfl⟩
        exact ⟨rfl, hts⟩
      · rintro ⟨rfl, hts⟩
        exact ⟨ws, hts, rfl, rfl⟩
  | case3 ts h1 h2 =>
    cases vs with
    | nil => simpa using h1
    | cons w ws => simpa using h2 w _

/-- The append `i` is the one that the tag `c` calls for, with the value `v`. -/
def suitsTag (c : Byte) (v : Token) (i : Instr) : Prop :=
  ∃ o, tagOpcode c = some o ∧ commandOf o [v] = some i

theorem msgAppends_cons_iff {c : Byte} {cs : List Byte} {v : Token} {vs : List Token} {is : List Instr} :
    msgAppends (c :: cs) (v :: vs) = some is ↔
      ∃ i js, is = i :: js ∧ suitsTag c v i ∧ msgAppends cs vs = some js := by
  constructor
  · intro h
    simp only [msgAppends] at h
    split at h
    case h_1 o js ho hjs =>
      obtain ⟨i, hi, rfl⟩ := Option.map_eq_some_iff.mp h
      exact ⟨i, js, rfl, ⟨o, ho, hi⟩, hjs⟩
    case h_2 => cases h
  · rintro ⟨i, js, rfl, ⟨o, ho, hi⟩, hjs⟩
    simp only [msgAppends, ho, hjs, hi, Option.map_some]

/-- There is one value and one append per tag, and each append suits its tag and value. -/
def eachSuitsTag (t : List Byte) (vs : List Token) (is : List Instr) : Prop :=
  vs.length = t.length ∧ is.length = t.length ∧
    ∀ (k : Nat) (c : Byte) (v : Token) (i : Instr), t[k]? = some c → vs[k]? = some v → is[k]? = some i →
      suitsTag c v i

theorem eachSuitsTag_cons_iff {c : Byte} {t : List Byte} {v : Token} {vs : List Token} {i : Instr} {is : List Instr} :
    eachSuitsTag (c :: t) (v :: vs) (i :: is) ↔ suitsTag c v i ∧ eachSuitsTag t vs is := by
  constructor
  · rintro ⟨hv, hi, hall⟩
    exact ⟨hall 0 c v i rfl rfl rfl, Nat.succ.inj hv, Nat.succ.inj hi, fun k => hall (k + 1)⟩
  · rintro ⟨h0, hv, hi, hall⟩
    refine ⟨congrArg (· + 1) hv, congrArg (· + 1) hi, fun k c' v' i' hc' hv' hi' => ?_⟩
    cases k with
    | zero => cases hc'; cases hv'; cases hi'; exact h0
    | succ k => exact hall k c' v' i' hc' hv' hi'

theorem msgAppends_eq_some_iff {t : List Byte} {vs : List Token} {is : List Instr} :
    msgAppends t vs = some is ↔ eachSuitsTag t vs is := by
  induction t generalizing vs is with
  | nil =>
    cases vs with
    | nil => simp [msgAppends, eachSuitsTag, eq_comm]
    | cons v vs => simp [msgAppends, eachSuitsTag]
  | cons c t ih =>
    cases vs with
    | nil => simp [msgAppends, eachSuitsTag]
    | cons v vs =>
      rw [msgAppends_cons_iff]
      cases is with
      | nil => simp [eachSuitsTag]
      | cons i is => simp [eachSuitsTag_cons_iff, ih]

theorem expand_msgTokens (a t : List Byte) (vs : List Token) :
    expand .osMsg (msgTokens a t vs) = (msgAppends t vs).map (.osBegin a t :: ·) := by
  simp only [msgTokens, expand, msgValues_eq_some_iff.mpr rfl]

/-- Only the operands of a message expand. -/
theorem exists_msgTokens_of_expand {ts : List Token} {js : List Instr} (h : expand .osMsg ts = some js) :
    ∃ a t vs, ts = msgTokens a t vs := by
  unfold expand at h
  split at h
  case h_1 | h_2 | h_3 => contradiction
  case h_4 a t ts _ =>
    split at h
    case h_1 vs hvs => exact ⟨a, t, vs, by rw [msgTokens, ← msgValues_eq_some_iff.mp hvs]⟩
    case h_2 => cases h
  case h_5 => cases h

theorem tagOpcode_eq_none {c : Byte} (hi : c ≠ 0x69) (hf : c ≠ 0x66) (hs : c ≠ 0x73) (hb : c ≠ 0x62) :
    tagOpcode c = none := by
  rw [tagOpcode, if_neg hi, if_neg hf, if_neg hs, if_neg hb]

/-- The token of each append's value (R80). -/
theorem commandOf_append_iff (v : Token) (i : Instr) :
    (commandOf .osI32 [v] = some i ↔ ∃ cs w, v = .word cs ∧ parseInt cs = some w ∧ i = .osI32 w) ∧
    (commandOf .osF32 [v] = some i ↔ ∃ cs w, v = .word cs ∧ parsePattern cs = some w ∧ i = .osF32 w) ∧
    (commandOf .osStr [v] = some i ↔ ∃ d, v = .text d ∧ i = .osStr d) ∧
    (commandOf .osBlob [v] = some i ↔ ∃ d, v = .blob d ∧ i = .osBlob d) := by
  cases v <;> simp [commandOf, eq_comm]

/-- Settles O55: the values are read after their commas, and the appends are made tag by tag. -/
theorem messagePseudoFollowsTags : Obligations.MessagePseudoFollowsTags := by
  refine ⟨fun a t vs js => ?_, fun ts hts => ?_,
    ⟨rfl, rfl, rfl, rfl, fun _ => tagOpcode_eq_none⟩, commandOf_append_iff⟩
  · rw [expand_msgTokens, Option.map_eq_some_iff]
    constructor
    · rintro ⟨is, his, rfl⟩
      exact ⟨is, rfl, msgAppends_eq_some_iff.mp his⟩
    · rintro ⟨is, rfl, hsuits⟩
      exact ⟨is, msgAppends_eq_some_iff.mpr hsuits, rfl⟩
  · refine Option.eq_none_iff_forall_ne_some.mpr fun js h => ?_
    obtain ⟨a, t, vs, rfl⟩ := exists_msgTokens_of_expand h
    exact hts a t vs rfl

end Sys2Proof.Machine
end

section
/-! SUPPORT. The OSC serializer family (spec/40_osc_serializer.md R102 to R112): what each append writes, the message that
the commands build up, and its read-back. Every writing command is one `osAppend` of its bytes. -/

namespace Sys2Proof.Machine

/-! ## What the commands append (R102, R104, R106, R107) -/

/-- An OSC string at an aligned cursor fills whole groups of four bytes, the last one with its NUL (R102). -/
theorem oscStr_length_of_aligned (d : List Byte) {k : Nat} (hk : k % 4 = 0) :
    (oscStr d k).length = 4 * (d.length / 4) + 4 := by
  have hmod := add_oscStr_length_mod d k
  have hpad := pad4_lt (k + d.length + 1)
  rw [oscStr_length] at hmod ⊢; omega

/-- The 4-byte size of a blob starts with two zero bytes, since a packet's blob has a 16-bit length (R107). -/
theorem oscBlob_eq_lengthBytes {d : List Byte} (hd : d.length < 65536) :
    oscBlob d = [0x00, 0x00] ++ lengthBytes d.length ++ d := by
  have h3 : d.length / 256 ^ 3 = 0 := by omega
  have h2 : d.length / 256 ^ 2 = 0 := by omega
  rw [oscBlob, beBytes, beBytes, h3, h2, lengthBytes_eq]; rfl

/-- Everything `osAppend` does, on both sides of its capacity check (R101). -/
theorem osAppend_spec (bs : List Byte) (s : State) :
    ∃ u, osAppend bs s = .next u ∧ s.frameOs u ∧
      (s.osCur.toNat + bs.length ≤ s.params.osCap.val → s.osAppended bs u) ∧
      (s.params.osCap.val < s.osCur.toNat + bs.length → s.osOverflowed u) := by
  rcases Nat.lt_or_ge s.params.osCap.val (s.osCur.toNat + bs.length) with hover | hfit
  · obtain ⟨u, hu, hframe, hovf⟩ := osAppend_spec_overflow hover
    exact ⟨u, hu, hframe, fun hfit => absurd hover (Nat.not_lt.mpr hfit), fun _ => hovf⟩
  · obtain ⟨u, hu, hframe, happ⟩ := osAppend_spec_fits hfit
    exact ⟨u, hu, hframe, fun _ => happ, fun hover => absurd hover (Nat.not_lt.mpr hfit)⟩

/-- Settles O16: `OS.BEGIN` appends its header at cursor 0, and each of the header's strings starts aligned. -/
theorem osBeginWritesHeader : Obligations.OsBeginWritesHeader := by
  rintro a t s A T rfl rfl
  have hA := oscStr_length_of_aligned a (k := 0) rfl
  have hT := oscStr_length_of_aligned (comma :: t) (k := (oscStr a 0).length) (by omega)
  obtain ⟨u, hu, hframe, hfits, hover⟩ := osAppend_spec (oscHeader a t) { s with osCur := 0 }
  have hlen : (0 : Half).toNat + (oscHeader a t).length =
      (oscStr a 0).length + (oscStr (comma :: t) (oscStr a 0).length).length := by
    rw [oscHeader, List.length_append]; exact Nat.zero_add _
  rw [hlen] at hfits hover
  refine ⟨decode_osBegin_packet, hA, hT, u, hu, hframe, fun h => ?_, fun h => ?_⟩
  · obtain ⟨hresp, hcur, hholds, hsame⟩ := hfits h
    rw [oscHeader, List.length_append] at hsame
    exact ⟨hresp, hcur.trans hlen, hholds, hsame⟩
  · obtain ⟨hresp, hcur, hosm⟩ := hover h
    exact ⟨hresp, hcur, hosm⟩

/-- Settles O17: `OS.I32` is one append of its word's four bytes. -/
theorem osI32AppendsBigEndian : Obligations.OsI32AppendsBigEndian := by
  intro w s
  rw [wordBytes_eq]
  exact ⟨decodeOfEncodeIsCommand (.osI32 w) rfl, osAppend_spec (beBytes 4 w.toNat) s⟩

/-- Settles O18: `OS.F32` appends what `OS.I32` does. -/
theorem osF32AppendsPattern : Obligations.OsF32AppendsPattern := by
  intro w s
  have hsame : exec (.osF32 w) s = exec (.osI32 w) s := rfl
  obtain ⟨_, heffect⟩ := osI32AppendsBigEndian w s
  refine ⟨?_, hsame, hsame ▸ heffect⟩
  rw [wordBytes_eq]
  exact decodeOfEncodeIsCommand (.osF32 w) rfl

/-- Settles O19: the append ends where the string's padding does, at a multiple of 4. -/
theorem osStrAppendsPadded : Obligations.OsStrAppendsPadded := by
  rintro d s S rfl
  obtain ⟨u, hu, hframe, hfits, hover⟩ := osAppend_spec (oscStr d s.osCur.toNat) s
  refine ⟨decode_osStr_packet, u, hu, hframe, fun h => ⟨hfits h, ?_⟩, hover⟩
  obtain ⟨_, hcur, _⟩ := hfits h
  rw [hcur]
  exact add_oscStr_length_mod d s.osCur.toNat

/-- Settles O20: the append is the 4-byte size and the bytes, with nothing after them. -/
theorem osBlobAppendsUnpadded : Obligations.OsBlobAppendsUnpadded := by
  intro d s hd
  obtain ⟨u, hu, hframe, hfits, hover⟩ := osAppend_spec (oscBlob d) s
  rw [oscBlob_length, ← Nat.add_assoc] at hfits hover
  refine ⟨decode_osBlob_packet hd, u, hu, hframe, fun h => ?_, hover⟩
  rw [← oscBlob_eq_lengthBytes hd]
  obtain ⟨_, hcur, _⟩ := hfits h
  exact ⟨hfits h, by rw [hcur, oscBlob_length, Nat.add_assoc]⟩

/-! ## The message so far (R100, R110) -/

/-- `OSM[0 .. OS_CUR-1]` is `bs`: the message built so far (R100). -/
def State.messageIs (s : State) (bs : List Byte) : Prop :=
  s.osCur.toNat = bs.length ∧ s.osm.holds 0 bs

/-- A successful append extends the message. -/
theorem State.messageIs.append {s t : State} {p bs : List Byte} (hs : s.messageIs p) (happ : s.osAppended bs t) :
    t.messageIs (p ++ bs) := by
  obtain ⟨hcur, hold⟩ := hs
  obtain ⟨_, hcur', hnew, hsame⟩ := happ
  refine ⟨by rw [hcur', hcur, List.length_append], fun k hk => ?_⟩
  rw [Nat.zero_add]
  rcases Nat.lt_or_ge k p.length with hlt | hge
  · have hread := hold k hlt
    rw [Nat.zero_add] at hread
    rw [hsame k (.inl (by omega)), hread, List.getElem?_append_left hlt]
  · obtain ⟨j, rfl⟩ := Nat.exists_eq_add_of_le hge
    rw [List.length_append] at hk
    have hread := hnew j (by omega)
    rw [hcur] at hread
    rw [hread, List.getElem?_append_right hge, Nat.add_sub_cancel_left]

/-- An append that fits behind the message succeeds and extends it. -/
theorem osAppend_extends {s : State} {p bs : List Byte} (hs : s.messageIs p)
    (hfit : (p ++ bs).length ≤ s.params.osCap.val) :
    ∃ t, osAppend bs s = .next t ∧ t.params = s.params ∧ t.resp = [0x00] ∧ t.messageIs (p ++ bs) := by
  have hroom : s.osCur.toNat + bs.length ≤ s.params.osCap.val := by
    rwa [hs.left, ← List.length_append]
  obtain ⟨t, ht, ⟨_, _, hparams, _⟩, happ⟩ := osAppend_spec_fits hroom
  exact ⟨t, ht, hparams, happ.left, hs.append happ⟩

/-- The append of an argument writes its wire format at the cursor (R109, R110). -/
theorem exec_oscArg (x : OscArg) (s : State) : exec x.instr s = osAppend (x.bytes s.osCur.toNat) s := by
  cases x with
  | int w | float w => rw [OscArg.bytes, wordBytes_eq]; rfl
  | str d | blob d => rfl

/-- A command that responds `OK`, before commands that all do. -/
theorem execAll_cons_ok {i : Instr} {is : List Instr} {s t u : State} {n : Nat} (h : exec i s = .next t)
    (hresp : t.resp = [0x00]) (hrest : execAll is t = some (List.replicate n [0x00], u)) :
    execAll (i :: is) s = some (List.replicate (n + 1) [0x00], u) := by
  rw [execAll_cons h hrest, hresp, List.replicate_succ]

/-- The wire format of a first argument and of those after it, behind the message `p` (R110). -/
theorem append_oscArgs_cons (p : List Byte) (x : OscArg) (xs : List OscArg) :
    p ++ oscArgs p.length (x :: xs) = p ++ x.bytes p.length ++ oscArgs (p ++ x.bytes p.length).length xs := by
  rw [oscArgs, List.append_assoc, List.length_append]

/-- The appends of arguments that fit behind the message extend it by their wire format, each with response `OK`. -/
theorem execAll_oscArgs {xs : List OscArg} {s : State} {p : List Byte} (hs : s.messageIs p)
    (hfit : (p ++ oscArgs p.length xs).length ≤ s.params.osCap.val) :
    ∃ u, execAll (xs.map OscArg.instr) s = some (List.replicate xs.length [0x00], u) ∧
      u.messageIs (p ++ oscArgs p.length xs) := by
  induction xs generalizing s p with
  | nil => exact ⟨s, rfl, by rwa [oscArgs, List.append_nil]⟩
  | cons x xs ih =>
    rw [append_oscArgs_cons] at hfit ⊢
    have hfit₁ : (p ++ x.bytes p.length).length ≤ s.params.osCap.val := by
      rw [List.length_append] at hfit; exact Nat.le_of_add_right_le hfit
    obtain ⟨t, ht, hparams, hresp, hmsg⟩ := osAppend_extends hs hfit₁
    have hexec : exec x.instr s = .next t := by rw [exec_oscArg, hs.left, ht]
    obtain ⟨u, hu, hmsg'⟩ := ih hmsg (hparams ▸ hfit)
    exact ⟨u, execAll_cons_ok hexec hresp hu, hmsg'⟩

/-- At cursor 0 the message is empty, whatever the buffer holds. -/
theorem State.messageIs_nil (s : State) : State.messageIs { s with osCur := 0 } [] :=
  ⟨rfl, fun _ hk => absurd hk (Nat.not_lt_zero _)⟩

/-- Settles O24: `OS.BEGIN` makes the header the message, and the appends extend it argument by argument. -/
theorem messageWireFormat : Obligations.MessageWireFormat := by
  intro a xs s hfit
  have hheader : (oscHeader a (xs.map OscArg.tag)).length ≤ s.params.osCap.val := by
    rw [oscMessage, List.length_append] at hfit; exact Nat.le_of_add_right_le hfit
  obtain ⟨t, ht, hparams, hresp, hmsg⟩ := osAppend_extends s.messageIs_nil hheader
  obtain ⟨u, hu, hcur, hholds⟩ := execAll_oscArgs hmsg (hparams ▸ hfit)
  exact ⟨u, execAll_cons_ok ht hresp hu, hcur, hholds⟩

/-! ## Read-back (R111, R112) -/

/-- Settles O21: `OS.READ` is the read-back of the message. -/
theorem osReadReturnsByte : Obligations.OsReadReturnsByte := by
  intro idx s
  rw [indexBytes_eq]
  exact ⟨decodeOfEncodeIsCommand (.osRead idx) rfl, readBack_outOfRange, fun _ => readBack_ok⟩

/-- Settles O22: the response is the status `OK` and the two bytes of the cursor. -/
theorem osStatusReturnsCursor : Obligations.OsStatusReturnsCursor :=
  ⟨decodeOfEncodeIsCommand .osStatus rfl, fun s => respond_eq .ok (halfBytes s.osCur) s⟩

end Sys2Proof.Machine
end

section
/-! SUPPORT. The SLIP decoder family (spec/41_slip_decoder.md R151 to R165; 90_conflicts.md C5): what `SD.PUSH` does with
each byte, the reception of a stuffed frame that fits and of one that does not, and the round trip through the encoder. -/

namespace Sys2Proof.Machine

/-! ## The rows of `SD.PUSH` (R151 to R159) -/

/-- Settles O26: the two rows of END in `Normal`, by whether there is a frame to complete. -/
theorem sdPushEndCompletesFrame : Obligations.SdPushEndCompletesFrame := fun _ hesc =>
  ⟨fun hlen => (execSdPush_normal hesc).trans (sdPushNormal_end_empty hlen),
    fun hlen => (execSdPush_normal hesc).trans (sdPushNormal_end_frame hlen)⟩

/-- Settles O27: the row of ESC in `Normal`. -/
theorem sdPushEscEntersEscaped : Obligations.SdPushEscEntersEscaped :=
  fun s hesc => (execSdPush_normal hesc).trans (sdPushNormal_esc s)

/-- Settles O28: in `Normal` a data byte is one `sd_append`. -/
theorem sdPushDataAppends : Obligations.SdPushDataAppends := by
  intro c s hlegal hesc hend hescByte
  obtain ⟨t, ht, hframe, htesc, happ⟩ := sdAppend_spec c s hlegal
  have hexec : exec (.sdPush c) s = sdAppend c s :=
    (execSdPush_normal hesc).trans (sdPushNormal_data hend hescByte)
  exact ⟨t, hexec.trans ht, hframe, htesc.trans hesc, happ⟩

/-- `sd_append` finishing an escape pair: it starts from `s` with the decoder back in `Normal`, which neither the frame
of an SD command nor the description of the append sees. -/
theorem sdAppend_spec_of_escaped {c v : Byte} {s : State} (hlegal : s.sdLegal)
    (hexec : exec (.sdPush c) s = sdAppend v { s with sdEsc := .normal }) :
    ∃ t, exec (.sdPush c) s = .next t ∧ s.frameSd t ∧ t.sdEsc = .normal ∧ s.sdAppends v t := by
  obtain ⟨t, ht, hframe, htesc, happ⟩ := sdAppend_spec v { s with sdEsc := .normal } hlegal
  exact ⟨t, hexec.trans ht, hframe, htesc, happ⟩

/-- Settles O29: each literal is one `sd_append` after the return to `Normal`. -/
theorem sdPushEscapedLiteralAppends : Obligations.SdPushEscapedLiteralAppends := fun _ hlegal hesc =>
  ⟨sdAppend_spec_of_escaped hlegal ((execSdPush_escaped hesc).trans (sdPushEscaped_escEnd _)),
    sdAppend_spec_of_escaped hlegal ((execSdPush_escaped hesc).trans (sdPushEscaped_escEsc _))⟩

/-- Settles O30: the last row of `Escaped`. -/
theorem sdPushEscapedViolation : Obligations.SdPushEscapedViolation :=
  fun _ _ hesc hend hescByte => (execSdPush_escaped hesc).trans (sdPushEscaped_other hend hescByte)

/-- The three outcomes of `sd_append` in a legal state have the responses `OK` and `BufferOverflow` (R151). -/
theorem State.sdAppends_resp {v : Byte} {s t : State} (hlegal : s.sdLegal) (h : s.sdAppends v t) :
    t.resp = [0x00] ∨ t.resp = [0x01] := by
  obtain ⟨hheld, hfits, hfull⟩ := h
  cases hready : s.sdReady with
  | true => exact .inl (hheld hready).left
  | false =>
    rcases hlegal.left.lt_or_eq with hlt | heq
    · exact .inl (hfits hready hlt).left
    · exact .inr (hfull hready heq).left

/-- Settles O31: the two escape pairs and the violation are all the rows of `Escaped`. -/
theorem sdPushLeavesEscaped : Obligations.SdPushLeavesEscaped := by
  intro c s hlegal hesc
  obtain ⟨hescEnd, hescEsc⟩ := sdPushEscapedLiteralAppends s hlegal hesc
  by_cases hend : c = 0xDC
  · obtain ⟨t, ht, _, htesc, happ⟩ := hescEnd
    exact ⟨t, hend ▸ ht, htesc, (State.sdAppends_resp hlegal happ).imp_right .inl⟩
  by_cases hescByte : c = 0xDD
  · obtain ⟨t, ht, _, htesc, happ⟩ := hescEsc
    exact ⟨t, hescByte ▸ ht, htesc, (State.sdAppends_resp hlegal happ).imp_right .inl⟩
  · exact ⟨_, sdPushEscapedViolation c s hesc hend hescByte, rfl, .inr (.inr rfl)⟩

/-! ## Clearing and reading back (R160, R162, R163) -/

/-- Settles O32: the two registers and the response, nothing else. -/
theorem sdClearDropsFrame : Obligations.SdClearDropsFrame :=
  ⟨decodeOfEncodeIsCommand .sdClear rfl, fun s => respond_eq .ok [] { s with sdLen := 0, sdReady := false }⟩

/-- Settles O33: `SD.READ` is the read-back of the frame. -/
theorem sdReadReturnsByte : Obligations.SdReadReturnsByte := by
  intro idx s
  rw [indexBytes_eq]
  exact ⟨decodeOfEncodeIsCommand (.sdRead idx) rfl, readBack_outOfRange, fun _ => readBack_ok⟩

/-- The flags byte is the sum of its two bits (R163). -/
theorem sdFlags_toNat (esc : EscState) (ready : Bool) :
    (sdFlags esc ready).toNat = (if ready then 1 else 0) + (if esc = .escaped then 2 else 0) := by
  cases esc <;> cases ready <;> decide

/-- Settles O34: the response is the status `OK`, the flags byte and the two bytes of the length. -/
theorem sdStatusReturnsRegisters : Obligations.SdStatusReturnsRegisters :=
  ⟨decodeOfEncodeIsCommand .sdStatus rfl, fun s =>
    ⟨sdFlags s.sdEsc s.sdReady, respond_eq .ok (sdFlags s.sdEsc s.sdReady :: halfBytes s.sdLen) s,
      sdFlags_toNat s.sdEsc s.sdReady⟩⟩

/-! ## Runs of commands, joined and cut -/

/-- A run that ends has executed its first command, and then the others. -/
theorem execAll_cons_inv {i : Instr} {is : List Instr} {s u : State} {rs : List (List Byte)}
    (h : execAll (i :: is) s = some (rs, u)) :
    ∃ t rs', exec i s = .next t ∧ execAll is t = some (rs', u) ∧ rs = t.resp :: rs' := by
  cases hi : exec i s with
  | next t =>
    simp only [execAll, hi, Option.map_eq_some_iff, Prod.mk.injEq] at h
    obtain ⟨⟨rs', u'⟩, hrest, rfl, rfl⟩ := h
    exact ⟨t, rs', rfl, hrest, rfl⟩
  | fault f => simp [execAll, hi] at h
  | refused r => simp [execAll, hi] at h

theorem execAll_append {is js : List Instr} {s t u : State} {rs rs' : List (List Byte)}
    (h : execAll is s = some (rs, t)) (h' : execAll js t = some (rs', u)) :
    execAll (is ++ js) s = some (rs ++ rs', u) := by
  induction is generalizing s rs with
  | nil => cases h; exact h'
  | cons i is ih =>
    obtain ⟨v, rs₀, hi, hrest, rfl⟩ := execAll_cons_inv h
    exact execAll_cons hi (ih hrest)

/-- A run that ends passes through a state after each of its initial stretches. -/
theorem execAll_append_inv {is js : List Instr} {s u : State} {rs : List (List Byte)}
    (h : execAll (is ++ js) s = some (rs, u)) :
    ∃ t rs₁ rs₂, execAll is s = some (rs₁, t) ∧ execAll js t = some (rs₂, u) := by
  induction is generalizing s rs with
  | nil => exact ⟨s, [], rs, rfl, h⟩
  | cons i is ih =>
    obtain ⟨v, rs', hi, hrest, _⟩ := execAll_cons_inv h
    obtain ⟨t, rs₁, rs₂, h₁, h₂⟩ := ih hrest
    exact ⟨t, _, rs₂, execAll_cons hi h₁, h₂⟩

theorem execAll_singleton {i : Instr} {s t : State} (h : exec i s = .next t) : execAll [i] s = some ([t.resp], t) :=
  execAll_cons h rfl

/-! ## What buffers hold -/

/-- Bytes written behind those a buffer holds extend them. -/
theorem Memory.holds.append {m m' : Memory} {a : Nat} {bs cs : List Byte} (hbs : m.holds a bs)
    (hcs : m'.holds (a + bs.length) cs) (hsame : m.sameOutside m' (a + bs.length) cs.length) :
    m'.holds a (bs ++ cs) := by
  intro k hk
  rcases Nat.lt_or_ge k bs.length with hlt | hge
  · rw [hsame _ (.inl (by omega)), hbs k hlt, List.getElem?_append_left hlt]
  · obtain ⟨j, rfl⟩ := Nat.exists_eq_add_of_le hge
    rw [List.length_append] at hk
    rw [← Nat.add_assoc, hcs j (by omega), List.getElem?_append_right hge, Nat.add_sub_cancel_left]

theorem Memory.holds_nil (m : Memory) (a : Nat) : m.holds a [] := fun _ hk => absurd hk (Nat.not_lt_zero _)

/-! ## One data byte of a frame, escaped (R151, R191) -/

theorem sdAppend_fits {v : Byte} {s : State} (h : (sdDiscard s).sdLen.toNat < s.params.sdCap.val) :
    sdAppend v s = .next
      { sdDiscard s with
        sdm := s.sdm.write (sdDiscard s).sdLen.toNat v
        sdLen := BitVec.ofNat 16 ((sdDiscard s).sdLen.toNat + 1)
        resp := [0x00] } := by
  rw [sdAppend, sdStore_fits (by rwa [sdDiscard_params]), sdDiscard_sdm]

/-- The discard does not see the response port. -/
theorem sdDiscard_with_resp (s : State) (r : List Byte) :
    sdDiscard { s with resp := r } = { sdDiscard s with resp := r } := by
  unfold sdDiscard; dsimp only; split <;> rfl

/-- `sd_append` overwrites the response and does not read it. -/
theorem sdAppend_with_resp (v : Byte) (s : State) (r : List Byte) : sdAppend v { s with resp := r } = sdAppend v s := by
  unfold sdAppend
  rw [sdDiscard_with_resp]
  rfl

theorem stuff1_end : stuff1 slipEnd = [slipEsc, slipEscEnd] := rfl

theorem stuff1_esc : stuff1 slipEsc = [slipEsc, slipEscEsc] := rfl

theorem stuff1_data {c : Byte} (hend : c ≠ slipEnd) (hesc : c ≠ slipEsc) : stuff1 c = [c] := by
  rw [stuff1, if_neg hend, if_neg hesc]

/-- The responses to the escape of the byte `c`: `OK` to an ESC before it, and `last` to the append. -/
def stuffResponses (last : List Byte) (c : Byte) : List (List Byte) :=
  List.replicate ((stuff1 c).length - 1) [0x00] ++ [last]

/-- An escape pair is an ESC that only enters `Escaped`, and one `sd_append`. -/
theorem execAll_escapePair {e v : Byte} {s t : State} (hesc : s.sdEsc = .normal)
    (hpair : ∀ u, sdPushEscaped e u = sdAppend v u) (h : sdAppend v s = .next t) :
    execAll ([slipEsc, e].map .sdPush) s = some ([[0x00], t.resp], t) := by
  have hsecond : exec (.sdPush e) { s with sdEsc := .escaped, resp := [0x00] } = .next t :=
    calc exec (.sdPush e) { s with sdEsc := .escaped, resp := [0x00] }
        = sdPushEscaped e { s with sdEsc := .normal, resp := [0x00] } :=
          execSdPush_escaped (s := { s with sdEsc := .escaped, resp := [0x00] }) rfl
      _ = sdAppend v { s with resp := [0x00] } := by rw [hpair, ← hesc]
      _ = .next t := by rw [sdAppend_with_resp, h]
  exact execAll_cons (sdPushEscEntersEscaped s hesc) (execAll_singleton hsecond)

/-- In `Normal` the escape of a byte, fed to the decoder, is one `sd_append` of the byte. -/
theorem execAll_stuff1 {c : Byte} {s t : State} (hesc : s.sdEsc = .normal) (h : sdAppend c s = .next t) :
    execAll ((stuff1 c).map .sdPush) s = some (stuffResponses t.resp c, t) := by
  by_cases hend : c = slipEnd
  · subst hend
    exact execAll_escapePair hesc sdPushEscaped_escEnd h
  by_cases hescByte : c = slipEsc
  · subst hescByte
    exact execAll_escapePair hesc sdPushEscaped_escEsc h
  · have hexec : exec (.sdPush c) s = .next t :=
      ((execSdPush_normal hesc).trans (sdPushNormal_data hend hescByte)).trans h
    rw [stuffResponses, stuff1_data hend hescByte]
    exact execAll_singleton hexec

theorem stuff_cons (c : Byte) (cs : List Byte) : stuff (c :: cs) = stuff1 c ++ stuff cs := List.flatMap_cons

theorem stuff_append (bs cs : List Byte) : stuff (bs ++ cs) = stuff bs ++ stuff cs := List.flatMap_append

/-! ## Receiving a frame (R164) -/

/-- The decoder is in `Normal` and has received the data bytes `bs` of a frame that is not complete. Before the first of
them a completed frame may still be held, which the first append will drop (R151). -/
structure State.hasReceived (s : State) (bs : List Byte) : Prop where
  normal : s.sdEsc = .normal
  length : (sdDiscard s).sdLen.toNat = bs.length
  held : s.sdm.holds 0 bs
  notReady : bs ≠ [] → s.sdReady = false

/-- The start states of R164 are those that have received nothing. -/
theorem State.hasReceived_nil {s : State} (hesc : s.sdEsc = .normal) (h : s.sdLen = 0 ∨ s.sdReady = true) :
    s.hasReceived [] where
  normal := hesc
  length := by rcases h with h | h <;> simp [h]
  held := s.sdm.holds_nil 0
  notReady h := absurd rfl h

/-- With nothing ready, the discard changes nothing and the length is the register's. -/
theorem sdDiscard_of_not_ready {s : State} (h : s.sdReady = false) : sdDiscard s = s := by
  rw [sdDiscard, h]; rfl

theorem State.hasReceived.sdLen {s : State} {bs : List Byte} (h : s.hasReceived bs) (hr : s.sdReady = false) :
    s.sdLen.toNat = bs.length := by
  rw [← h.length, sdDiscard_of_not_ready hr]

/-- With nothing ready the registers themselves say what has been received. -/
theorem State.hasReceived_of_not_ready {s : State} {bs : List Byte} (hesc : s.sdEsc = .normal) (hr : s.sdReady = false)
    (hlen : s.sdLen.toNat = bs.length) (hheld : s.sdm.holds 0 bs) : s.hasReceived bs :=
  ⟨hesc, by rwa [sdDiscard_of_not_ready hr], hheld, fun _ => hr⟩

/-- A data byte that fits extends what has been received. -/
theorem sdAppend_extends {s : State} {bs : List Byte} (h : s.hasReceived bs) (hfit : bs.length < s.params.sdCap.val)
    (c : Byte) :
    ∃ t, sdAppend c s = .next t ∧ t.params = s.params ∧ t.resp = [0x00] ∧ t.hasReceived (bs ++ [c]) := by
  have hnew : (s.sdm.writeSeq (0 + bs.length) [c]).holds 0 (bs ++ [c]) :=
    h.held.append (s.sdm.holds_writeSeq _ _) (s.sdm.sameOutside_writeSeq _ _)
  rw [Nat.zero_add] at hnew
  have happ := sdAppend_fits (v := c) (h.length.symm ▸ hfit)
  rw [h.length] at happ
  have hlen : (BitVec.ofNat 16 (bs.length + 1)).toNat = (bs ++ [c]).length := by
    rw [List.length_append]; exact toNat_ofNat_of_le_cap hfit
  exact ⟨_, happ, sdDiscard_params s, rfl,
    State.hasReceived_of_not_ready ((sdDiscard_sdEsc s).trans h.normal) (sdDiscard_sdReady s) hlen hnew⟩

/-- A data byte of a full frame is dropped, with no trace but the response. -/
theorem sdAppend_dropped {s : State} (hr : s.sdReady = false) (hfull : s.sdLen.toNat = s.params.sdCap.val) (c : Byte) :
    sdAppend c s = .next { s with resp := [0x01] } := by
  rw [sdAppend, sdDiscard_of_not_ready hr, sdStore_full hfull]

/-- Stuffed data bytes that fit are received in order, every append with response `OK`. -/
theorem execAll_stuff_fits {S : List Byte} {s : State} {bs : List Byte} (h : s.hasReceived bs)
    (hfit : (bs ++ S).length ≤ s.params.sdCap.val) :
    ∃ t, execAll ((stuff S).map .sdPush) s = some (S.flatMap (stuffResponses [0x00]), t) ∧ t.params = s.params ∧
      t.hasReceived (bs ++ S) := by
  induction S generalizing s bs with
  | nil => exact ⟨s, rfl, rfl, by rwa [List.append_nil]⟩
  | cons c S ih =>
    rw [List.append_cons] at hfit ⊢
    have hroom : bs.length < s.params.sdCap.val := by simp at hfit; omega
    obtain ⟨t, ht, hparams, hresp, hrec⟩ := sdAppend_extends h hroom c
    obtain ⟨u, hu, hparams', hrec'⟩ := ih hrec (hparams ▸ hfit)
    have hfirst := execAll_stuff1 h.normal ht
    rw [hresp] at hfirst
    refine ⟨u, ?_, hparams'.trans hparams, hrec'⟩
    rw [stuff_cons, List.map_append, List.flatMap_cons]
    exact execAll_append hfirst hu

/-- The END overwrites the response and does not read it (R153). -/
theorem sdPush_end_with_resp {s : State} (hesc : s.sdEsc = .normal) (r : List Byte) :
    exec (.sdPush slipEnd) { s with resp := r } = exec (.sdPush slipEnd) s := by
  obtain ⟨hempty, hframe⟩ := sdPushEndCompletesFrame s hesc
  obtain ⟨hempty', hframe'⟩ := sdPushEndCompletesFrame { s with resp := r } hesc
  by_cases hlen : s.sdLen = 0
  · exact (hempty' hlen).trans (hempty hlen).symm
  · exact (hframe' hlen).trans (hframe hlen).symm

/-- With the frame full, data bytes are dropped, and the END after them does what it would do without them (R165). -/
theorem execAll_stuff_dropped {S : List Byte} {s t : State} (hesc : s.sdEsc = .normal) (hr : s.sdReady = false)
    (hfull : s.sdLen.toNat = s.params.sdCap.val) (hend : exec (.sdPush slipEnd) s = .next t) :
    execAll ((stuff S ++ [slipEnd]).map .sdPush) s = some (S.flatMap (stuffResponses [0x01]) ++ [t.resp], t) := by
  induction S generalizing s with
  | nil => exact execAll_singleton hend
  | cons c S ih =>
    have hfirst := execAll_stuff1 hesc (sdAppend_dropped hr hfull c)
    have hrest := ih (s := { s with resp := [0x01] }) hesc hr hfull ((sdPush_end_with_resp hesc [0x01]).trans hend)
    rw [stuff_cons, List.append_assoc, List.map_append, List.flatMap_cons, List.append_assoc]
    exact execAll_append hfirst hrest

/-- The decoder holds the complete frame `F`, ready and in `Normal` (R26). -/
structure State.holdsFrame (s : State) (F : List Byte) : Prop where
  ready : s.sdReady = true
  length : s.sdLen.toNat = F.length
  held : s.sdm.holds 0 F
  normal : s.sdEsc = .normal

theorem State.hasReceived.sdLen_ne_zero {s : State} {bs : List Byte} (h : s.hasReceived bs) (hne : bs ≠ []) :
    s.sdLen ≠ 0 := by
  intro h0
  have hlen := h.sdLen (h.notReady hne)
  rw [h0] at hlen
  exact hne (List.length_eq_zero_iff.mp hlen.symm)

/-- The END after at least one data byte makes what has been received the frame held ready (R153). -/
theorem State.hasReceived.complete {s : State} {bs : List Byte} (h : s.hasReceived bs) (hne : bs ≠ []) :
    exec (.sdPush slipEnd) s = .next { s with sdReady := true, resp := [0x00] } ∧
      { s with sdReady := true, resp := [0x00] }.holdsFrame bs :=
  ⟨(sdPushEndCompletesFrame s h.normal).2 (h.sdLen_ne_zero hne), rfl, h.sdLen (h.notReady hne), h.held, h.normal⟩

/-- An escape whose last response is `OK` has `OK` for each of its bytes. -/
theorem stuffResponses_ok (c : Byte) : stuffResponses [0x00] c = List.replicate (stuff1 c).length [0x00] := by
  have hpos : (stuff1 c).length - 1 + 1 = (stuff1 c).length := by
    unfold stuff1; split
    · rfl
    · split <;> rfl
  rw [stuffResponses, ← List.replicate_succ', hpos]

theorem flatMap_stuffResponses_ok (S : List Byte) :
    S.flatMap (stuffResponses [0x00]) = List.replicate (stuff S).length [0x00] := by
  induction S with
  | nil => rfl
  | cons c S ih =>
    rw [List.flatMap_cons, stuffResponses_ok, ih, stuff_cons, List.length_append, List.replicate_add]

/-- R164: a stuffed frame that fits is received up to its END, and the END makes it ready. -/
theorem execAll_frame {S : List Byte} {s : State} (h : s.hasReceived []) (hne : S ≠ [])
    (hfit : S.length ≤ s.params.sdCap.val) :
    ∃ u t, execAll ((stuff S).map .sdPush) s = some (List.replicate (stuff S).length [0x00], u) ∧
      u.params = s.params ∧ u.hasReceived S ∧
      exec (.sdPush slipEnd) u = .next t ∧ t.resp = [0x00] ∧ t.holdsFrame S := by
  obtain ⟨u, hu, hparams, hrec⟩ := execAll_stuff_fits h (S := S) hfit
  obtain ⟨hend, hframe⟩ := hrec.complete hne
  rw [flatMap_stuffResponses_ok] at hu
  exact ⟨u, _, hu, hparams, hrec, hend, rfl, hframe⟩

/-- The END after a run of data bytes. -/
theorem execAll_sdPush_end {bs : List Byte} {s u t : State} {rs : List (List Byte)}
    (h : execAll (bs.map .sdPush) s = some (rs, u)) (hend : exec (.sdPush slipEnd) u = .next t) :
    execAll ((bs ++ [slipEnd]).map .sdPush) s = some (rs ++ [t.resp], t) := by
  rw [List.map_append]
  exact execAll_append h (execAll_singleton hend)

/-- No byte of a stuffed sequence is an END (R191). -/
theorem ne_slipEnd_of_mem_stuff {S : List Byte} {c : Byte} (h : c ∈ stuff S) : c ≠ slipEnd := by
  obtain ⟨b, _, hc⟩ := List.mem_flatMap.mp h
  by_cases hend : b = slipEnd
  · rw [hend, stuff1_end] at hc
    rcases List.mem_pair.mp hc with rfl | rfl <;> decide
  by_cases hesc : b = slipEsc
  · rw [hesc, stuff1_esc] at hc
    rcases List.mem_pair.mp hc with rfl | rfl <;> decide
  · rw [stuff1_data hend hesc] at hc
    rwa [List.mem_singleton.mp hc]

/-- Only the row of END in `Normal` completes a frame. -/
theorem sdAction_eq_completeFrame {esc : EscState} {c : Byte} (h : sdAction esc c = .completeFrame) : c = slipEnd := by
  unfold sdAction at h
  split at h <;> split at h
  · assumption
  · split at h <;> cases h
  · cases h
  · split at h <;> cases h

/-- Only the completion of a frame makes one ready. -/
theorem SdAction.run_not_ready {x : SdAction} {s t : State} (hx : x ≠ .completeFrame) (h : x.run s = .next t)
    (hr : s.sdReady = false) : t.sdReady = false := by
  cases x with
  | completeFrame => exact absurd rfl hx
  | enterEscaped | reportViolation => cases h; exact hr
  | append v => rcases sdAppend_cases h with ⟨_, rfl⟩ | ⟨_, rfl⟩ <;> exact sdDiscard_sdReady s

/-- A frame becomes ready at an END only. -/
theorem sdPush_not_ready {c : Byte} {s t : State} (hc : c ≠ slipEnd) (h : exec (.sdPush c) s = .next t)
    (hr : s.sdReady = false) : t.sdReady = false := by
  rw [exec, execSdPush_eq_action] at h
  exact SdAction.run_not_ready (fun hx => hc (sdAction_eq_completeFrame hx)) h hr

/-- A run of pushes that ends passes through the two states around each of them. -/
theorem execAll_sdPush_split {p q : List Byte} {c : Byte} {s t : State} {rs : List (List Byte)}
    (h : execAll ((p ++ c :: q).map .sdPush) s = some (rs, t)) :
    ∃ rs u v, execAll (p.map .sdPush) s = some (rs, u) ∧ exec (.sdPush c) u = .next v := by
  rw [List.map_append] at h
  obtain ⟨u, rs₁, _, hu, hrest⟩ := execAll_append_inv h
  obtain ⟨v, _, hv, _⟩ := execAll_cons_inv hrest
  exact ⟨rs₁, u, v, hu, hv⟩

/-- R153: where there is nothing to complete, an END changes the response only. -/
theorem sdPush_end_of_start {s : State} (hesc : s.sdEsc = .normal) (h : s.sdLen = 0 ∨ s.sdReady = true) :
    exec (.sdPush slipEnd) s = .next { s with resp := [0x00] } := by
  obtain ⟨hempty, hframe⟩ := sdPushEndCompletesFrame s hesc
  by_cases hlen : s.sdLen = 0
  · exact hempty hlen
  · have hready := h.resolve_left hlen
    exact (hframe hlen).trans (by rw [← hready])

/-- Settles O35: the data bytes are received one `sd_append` each and make nothing ready, since no byte of a stuffed
sequence is an END; the final END completes the frame. -/
theorem frameReception : Obligations.FrameReception := by
  intro S s hesc hstart
  refine ⟨fun hpos hfit => ?_, ?_⟩
  · have hne : S ≠ [] := List.ne_nil_of_length_pos hpos
    obtain ⟨u, t, hu, _, hrec, hend, hresp, hframe⟩ := execAll_frame (State.hasReceived_nil hesc hstart) hne hfit
    have hrun := execAll_sdPush_end hu hend
    rw [hresp, ← List.replicate_succ'] at hrun
    refine ⟨⟨t, hrun, hframe.ready, hframe.length, hframe.held, hframe.normal⟩, ?_⟩
    intro p c q (hsplit : stuff S ++ [slipEnd] = p ++ c :: q)
    rcases List.eq_nil_or_concat q with rfl | ⟨q', z, rfl⟩
    · obtain ⟨rfl, hc⟩ := List.append_inj' hsplit rfl
      obtain rfl : slipEnd = c := List.head_eq_of_cons_eq hc
      exact ⟨_, u, t, hu, hend, fun _ => rfl, fun _ => ⟨hrec.notReady hne, hframe.ready⟩⟩
    · rw [hsplit] at hrun
      obtain ⟨rs, u', v, hu', hv⟩ := execAll_sdPush_split hrun
      have hmem : c ∈ stuff S := by
        rw [List.concat_eq_append, ← List.cons_append, ← List.append_assoc] at hsplit
        rw [List.append_inj_left' hsplit rfl]
        exact List.mem_append_right p List.mem_cons_self
      refine ⟨rs, u', v, hu', hv, fun ⟨hnot, hnow⟩ => ?_, fun hq => absurd hq (by simp)⟩
      exact absurd hnow (by simp [sdPush_not_ready (ne_slipEnd_of_mem_stuff hmem) hv hnot])
  · rintro rfl
    exact execAll_singleton (sdPush_end_of_start hesc hstart)

/-! ## A frame that does not fit (R165) -/

/-- Where the responses to a byte do not depend on its place, the places can be dropped. -/
theorem flatMap_zipIdx_eq {α β : Type} {f : α × Nat → List β} {g : α → List β} {l : List α} {k : Nat}
    (h : ∀ x ∈ l.zipIdx k, f x = g x.1) : (l.zipIdx k).flatMap f = l.flatMap g := by
  rw [List.flatMap_congr h, ← List.flatMap_map, List.zipIdx_map_fst]

/-- The responses to a frame longer than `n`: the first `n` bytes and their escapes are `OK`, the later bytes
overflow. -/
theorem zipIdx_stuffResponses {S : List Byte} {n : Nat} (hn : n ≤ S.length) :
    (S.zipIdx.flatMap fun x => stuffResponses (if x.2 < n then [0x00] else [0x01]) x.1) =
      List.replicate (stuff (S.take n)).length [0x00] ++ (S.drop n).flatMap (stuffResponses [0x01]) := by
  have hlen : (S.take n).length = n := List.length_take_of_le hn
  rw [← flatMap_stuffResponses_ok]
  conv_lhs => rw [← List.take_append_drop n S, List.zipIdx_append, List.flatMap_append]
  congr 1
  · refine flatMap_zipIdx_eq fun x hx => ?_
    have hlt := List.snd_lt_add_of_mem_zipIdx hx
    rw [if_pos (by omega)]
  · refine flatMap_zipIdx_eq fun x hx => ?_
    have hle := List.le_snd_of_mem_zipIdx hx
    rw [if_neg (by omega)]

/-- Settles O36: the bytes past the capacity change the response only, so the END finds the state of the frame cut to
the capacity; with no capacity at all it finds the start state. -/
theorem truncatedFrameBecomesReady : Obligations.TruncatedFrameBecomesReady := by
  refine ⟨fun S s hesc hstart hpos hlong => ?_, fun S s hesc hlen hready hcap => ?_⟩
  · generalize hn : s.params.sdCap.val = n at hpos hlong ⊢
    have hcut : (S.take n).length = n := List.length_take_of_le hlong.le
    have hne : S.take n ≠ [] := List.ne_nil_of_length_pos (hcut.symm ▸ hpos)
    obtain ⟨u, t, hu, hparams, hrec, hend, hresp, hframe⟩ :=
      execAll_frame (State.hasReceived_nil hesc hstart) hne (hcut.trans hn.symm).le
    have hready := hrec.notReady hne
    have hfull : u.sdLen.toNat = u.params.sdCap.val := by rw [hrec.sdLen hready, hcut, hparams, hn]
    have hrest := execAll_stuff_dropped (S := S.drop n) hrec.normal hready hfull hend
    refine ⟨t, ?_, hframe.ready, hframe.length.trans hcut, hframe.held, hframe.normal, _, execAll_sdPush_end hu hend⟩
    have hrun := execAll_append hu hrest
    rw [← List.map_append, ← List.append_assoc, ← stuff_append, List.take_append_drop, hresp, ← List.append_assoc,
      ← zipIdx_stuffResponses hlong.le] at hrun
    exact hrun
  · exact execAll_stuff_dropped hesc hready (by rw [hlen, hcap]; rfl)
      ((sdPushEndCompletesFrame s hesc).left hlen)

/-! ## The round trip through the encoder (C5, R164, R197) -/

/-- `SEM[a .. SE_LEN-1]` is `bs`: what has been appended to the transmit stream since the cursor was `a` (R190). -/
def State.streamFrom (a : Nat) (bs : List Byte) (s : State) : Prop :=
  s.seLen.toNat = a + bs.length ∧ s.sem.holds a bs

theorem State.streamFrom_nil (s : State) : s.streamFrom s.seLen.toNat [] := ⟨rfl, s.sem.holds_nil _⟩

/-- An append that fits behind the stream succeeds and extends it. -/
theorem seAppend_extends {s : State} {a : Nat} {p bs : List Byte} (hs : s.streamFrom a p)
    (hfit : a + (p ++ bs).length ≤ s.params.seCap.val) :
    ∃ t, seAppend bs s = .next t ∧ t.params = s.params ∧ t.resp = [0x00] ∧ t.streamFrom a (p ++ bs) := by
  obtain ⟨hlen, hheld⟩ := hs
  rw [List.length_append, ← Nat.add_assoc, ← hlen] at hfit
  obtain ⟨t, ht, ⟨_, _, hparams, _⟩, hresp, hlen', hnew, hsame⟩ := seAppend_spec_fits hfit
  rw [hlen] at hnew hsame
  exact ⟨t, ht, hparams, hresp, by rw [hlen', hlen, List.length_append, Nat.add_assoc], hheld.append hnew hsame⟩

/-- Pushes that fit behind the stream extend it by their escapes, each with response `OK`. -/
theorem execAll_sePush {S : List Byte} {s : State} {a : Nat} {p : List Byte} (hs : s.streamFrom a p)
    (hfit : a + (p ++ stuff S).length ≤ s.params.seCap.val) :
    ∃ t, execAll (S.map .sePush) s = some (List.replicate S.length [0x00], t) ∧ t.params = s.params ∧
      t.streamFrom a (p ++ stuff S) := by
  induction S generalizing s p with
  | nil => exact ⟨s, rfl, rfl, by rwa [stuff, List.flatMap_nil, List.append_nil]⟩
  | cons c S ih =>
    rw [stuff_cons, ← List.append_assoc] at hfit ⊢
    have hfit₁ : a + (p ++ stuff1 c).length ≤ s.params.seCap.val := by
      rw [List.length_append] at hfit; omega
    obtain ⟨t, ht, hparams, hresp, hstream⟩ := seAppend_extends hs hfit₁
    obtain ⟨u, hu, hparams', hstream'⟩ := ih hstream (hparams ▸ hfit)
    exact ⟨u, execAll_cons_ok ht hresp hu, hparams'.trans hparams, hstream'⟩

/-- R197: `SE.FRAME S` that fits writes the stuffed frame and its END, each command with response `OK`. -/
theorem execAll_seFrame {S : List Byte} {s : State}
    (hfit : s.seLen.toNat + (stuff S).length + 1 ≤ s.params.seCap.val) :
    ∃ t, execAll (S.map .sePush ++ [.seEnd]) s = some (List.replicate (S.length + 1) [0x00], t) ∧
      t.streamFrom s.seLen.toNat (stuff S ++ [slipEnd]) := by
  obtain ⟨u, hu, hparams, hstream⟩ := execAll_sePush (S := S) s.streamFrom_nil (Nat.le_of_succ_le hfit)
  obtain ⟨t, ht, _, hresp, hstream'⟩ := seAppend_extends (bs := [slipEnd]) hstream
    (by rw [hparams, List.nil_append, List.length_append]; exact hfit)
  have hend : exec .seEnd u = .next t := ht
  have hrun := execAll_append hu (execAll_singleton hend)
  rw [hresp, ← List.replicate_succ'] at hrun
  exact ⟨t, hrun, hstream'⟩

/-- The command `i` returns the byte `b` in `s` and changes nothing but the response, whatever response was there. -/
def State.returns (s : State) (i : Instr) (b : Byte) : Prop :=
  ∀ r, exec i { s with resp := r } = .next { s with resp := [0x00, b] }

/-- A run of commands that return bytes returns them in order. -/
theorem execAll_returns {is : List Instr} {bs : List Byte} {s : State} (h : List.Forall₂ s.returns is bs) :
    ∃ u, execAll is s = some (bs.map fun b => [0x00, b], u) := by
  induction is generalizing bs s with
  | nil => cases h; exact ⟨s, rfl⟩
  | cons i is ih =>
    cases h with
    | cons hi hrest =>
      obtain ⟨u, hu⟩ := ih (s := { s with resp := [0x00, _] }) hrest
      exact ⟨u, execAll_cons (hi s.resp) hu⟩

/-- `SE.READ` returns each byte of the stream (R195). -/
theorem State.streamFrom.returns_seRead {s : State} {F : List Byte} (h : s.streamFrom 0 F) {k : Nat}
    (hk : k < F.length) : s.returns (.seRead (BitVec.ofNat 16 k)) F[k] := by
  intro r
  obtain ⟨hlen, hheld⟩ := h
  have hidx : (BitVec.ofNat 16 k).toNat = k := by
    have := s.seLen.isLt
    rw [BitVec.toNat_ofNat]; omega
  have hread := hheld k hk
  rw [Nat.zero_add, List.getElem?_eq_getElem hk] at hread
  have hlt : (BitVec.ofNat 16 k).toNat < s.seLen.toNat := by omega
  exact readBack_ok hlt (by rw [hidx]; exact hread)

/-- R195: reading the stream out from its start to its length returns it. -/
theorem execAll_seRead_stream {s : State} {F : List Byte} (h : s.streamFrom 0 F) :
    ∃ u, execAll ((List.range s.seLen.toNat).map fun k => .seRead (BitVec.ofNat 16 k)) s =
      some (F.map fun b => [0x00, b], u) := by
  refine execAll_returns (List.forall₂_map_left_iff.mpr (List.forall₂_iff_get.mpr ⟨?_, fun k _ hk => ?_⟩))
  · rw [List.length_range, h.left, Nat.zero_add]
  · rw [List.get_eq_getElem, List.getElem_range]
    exact h.returns_seRead hk

theorem State.agreeOn_refl (s : State) (u : CodecUnit) : s.agreeOn u s := by
  cases u with
  | os | se => exact ⟨⟨rfl, rfl⟩, rfl⟩
  | sd => exact ⟨⟨rfl, rfl, rfl, rfl⟩, rfl⟩

theorem State.agreeOn_trans {s t v : State} {u : CodecUnit} (h : s.agreeOn u t) (h' : t.agreeOn u v) :
    s.agreeOn u v := by
  cases u with
  | os | se =>
    obtain ⟨⟨h₁, h₂⟩, hcap⟩ := h
    obtain ⟨⟨h₁', h₂'⟩, hcap'⟩ := h'
    exact ⟨⟨h₁'.trans h₁, h₂'.trans h₂⟩, hcap'.trans hcap⟩
  | sd =>
    obtain ⟨⟨h₁, h₂, h₃, h₄⟩, hcap⟩ := h
    obtain ⟨⟨h₁', h₂', h₃', h₄'⟩, hcap'⟩ := h'
    exact ⟨⟨h₁'.trans h₁, h₂'.trans h₂, h₃'.trans h₃, h₄'.trans h₄⟩, hcap'.trans hcap⟩

/-- A run of commands of one unit keeps every other unit as it is (R30). -/
theorem execAll_agreeOn {u w : CodecUnit} {is : List Instr} {s t : State} {rs : List (List Byte)}
    (his : ∀ i ∈ is, codecUnitOf i = w) (hne : u ≠ w) (h : execAll is s = some (rs, t)) : s.agreeOn u t := by
  induction is generalizing s rs with
  | nil => cases h; exact State.agreeOn_refl _ u
  | cons i is ih =>
    obtain ⟨v, rs', hi, hrest, _⟩ := execAll_cons_inv h
    obtain ⟨hunit, htail⟩ := List.forall_mem_cons.mp his
    have hfirst := State.agreeOn_of_frameOf (commandsWriteOnlyTheirUnit i s v hi) (hunit.symm ▸ hne)
    exact State.agreeOn_trans hfirst (ih htail hrest)

/-- Settles O43: the encoder's stream is the stuffed payload and its END, reading it out returns it, and neither touches
the decoder, which then receives a frame that fits. -/
theorem slipRoundTrip : Obligations.SlipRoundTrip := by
  intro S s hpos hfit hroom hse hesc hstart
  have h0 : s.seLen.toNat = 0 := by rw [hse]; rfl
  obtain ⟨t, ht, hstream⟩ := execAll_seFrame (S := S) (s := s) (by rwa [h0, Nat.zero_add])
  rw [h0] at hstream
  obtain ⟨u, hu⟩ := execAll_seRead_stream hstream
  have hunit : ∀ i ∈ S.map .sePush ++ [.seEnd] ++
      (List.range t.seLen.toNat).map fun k => .seRead (BitVec.ofNat 16 k), codecUnitOf i = .se := by
    simp only [List.forall_mem_append, List.forall_mem_map, List.forall_mem_singleton]
    exact ⟨⟨fun _ _ => rfl, rfl⟩, fun _ _ => rfl⟩
  obtain ⟨⟨hesc', hlen', hready', _⟩, hcap⟩ := execAll_agreeOn (u := .sd) hunit (by decide) (execAll_append ht hu)
  have hrec : u.hasReceived [] := State.hasReceived_nil (hesc'.trans hesc) (by rwa [hlen', hready'])
  obtain ⟨w, v, hw, _, _, hend, _, hframe⟩ :=
    execAll_frame hrec (List.ne_nil_of_length_pos hpos) (hcap.symm ▸ hfit)
  exact ⟨_, t, _, u, _, v, ht, hu, execAll_sdPush_end hw hend, hframe.ready, hframe.length, hframe.held⟩

end Sys2Proof.Machine
end

section
/-! SUPPORT. The SLIP encoder family (spec/42_slip_encoder.md R191 to R197): what `SE.PUSH` and `SE.END` append, the
shape of a stuffed frame, and the transmission of one. -/

namespace Sys2Proof.Machine

/-! ## The appends (R192, R193) -/

/-- Everything `seAppend` does, on both sides of its capacity check (R192). -/
theorem seAppend_spec (bs : List Byte) (s : State) :
    ∃ u, seAppend bs s = .next u ∧ s.frameSe u ∧
      (s.seLen.toNat + bs.length ≤ s.params.seCap.val → s.seAppended bs u) ∧
      (s.params.seCap.val < s.seLen.toNat + bs.length → s.seOverflowed u) := by
  rcases Nat.lt_or_ge s.params.seCap.val (s.seLen.toNat + bs.length) with hover | hfit
  · obtain ⟨u, hu, hframe, hovf⟩ := seAppend_spec_overflow hover
    exact ⟨u, hu, hframe, fun hfit => absurd hover (Nat.not_lt.mpr hfit), fun _ => hovf⟩
  · obtain ⟨u, hu, hframe, happ⟩ := seAppend_spec_fits hfit
    exact ⟨u, hu, hframe, fun _ => happ, fun hover => absurd hover (Nat.not_lt.mpr hfit)⟩

/-- Settles O37: `SE.PUSH` is one append of its byte's escape. -/
theorem sePushAppendsEscaped : Obligations.SePushAppendsEscaped := by
  intro c s E hE
  obtain rfl : E = stuff1 c := hE
  exact ⟨decodeOfEncodeIsCommand (.sePush c) rfl, seAppend_spec (stuff1 c) s⟩

/-- Settles O38: `SE.END` is one append of an END. -/
theorem seEndAppendsTerminator : Obligations.SeEndAppendsTerminator :=
  ⟨decodeOfEncodeIsCommand .seEnd rfl, seAppend_spec [slipEnd]⟩

/-! ## Clearing and reading back (R194, R195, R196) -/

/-- Settles O39: the cursor and the response, nothing else. -/
theorem seClearEmptiesBuffer : Obligations.SeClearEmptiesBuffer :=
  ⟨decodeOfEncodeIsCommand .seClear rfl, fun s => respond_eq .ok [] { s with seLen := 0 }⟩

/-- Settles O40: `SE.READ` is the read-back of the transmit stream. -/
theorem seReadReturnsByte : Obligations.SeReadReturnsByte := by
  intro idx s
  rw [indexBytes_eq]
  exact ⟨decodeOfEncodeIsCommand (.seRead idx) rfl, readBack_outOfRange, fun _ => readBack_ok⟩

/-- Settles O41: the response is the status `OK` and the two bytes of the cursor. -/
theorem seStatusReturnsCursor : Obligations.SeStatusReturnsCursor :=
  ⟨decodeOfEncodeIsCommand .seStatus rfl, fun s => respond_eq .ok (halfBytes s.seLen) s⟩

/-! ## The shape of a stuffed frame (R191, R197) -/

/-- A byte is two bytes long in the stream exactly when it is an END or an ESC. -/
theorem stuff1_length (c : Byte) :
    (stuff1 c).length = 1 + if c == slipEnd || c == slipEsc then 1 else 0 := by
  by_cases hend : c = slipEnd
  · rw [hend]; rfl
  by_cases hesc : c = slipEsc
  · rw [hesc]; rfl
  · simp [stuff1_data hend hesc, hend, hesc]

theorem stuff_length (S : List Byte) :
    (stuff S).length = S.length + S.countP (fun c => c == slipEnd || c == slipEsc) := by
  induction S with
  | nil => rfl
  | cons c S ih =>
    rw [stuff_cons, List.length_append, stuff1_length, ih, List.countP_cons, List.length_cons]
    omega

/-- The END of a frame is the only one in it. -/
theorem eq_length_of_getElem?_slipEnd {S : List Byte} {k : Nat} (h : (stuff S ++ [slipEnd])[k]? = some slipEnd) :
    k = (stuff S).length := by
  rcases Nat.lt_or_ge k (stuff S).length with hlt | hge
  · rw [List.getElem?_append_left hlt] at h
    exact absurd rfl (ne_slipEnd_of_mem_stuff (List.mem_of_getElem? h))
  · obtain ⟨hlt, _⟩ := List.getElem?_eq_some_iff.mp h
    rw [List.length_append, List.length_singleton] at hlt
    omega

/-- Every ESC is the first byte of an escape pair: an ESC_END or an ESC_ESC comes right after it. -/
def escPaired (bs : List Byte) : Prop :=
  ∀ k, bs[k]? = some slipEsc → bs[k + 1]? = some slipEscEnd ∨ bs[k + 1]? = some slipEscEsc

theorem escPaired.cons {bs : List Byte} (h : escPaired bs) {c : Byte} (hc : c ≠ slipEsc) : escPaired (c :: bs)
  | 0, hk => absurd (Option.some.inj hk) hc
  | k + 1, hk => h k hk

theorem escPaired.pair {bs : List Byte} (h : escPaired bs) {e : Byte} (he : e = slipEscEnd ∨ e = slipEscEsc) :
    escPaired (slipEsc :: e :: bs)
  | 0, _ => he.imp (congrArg some) (congrArg some)
  | k + 1, hk => h.cons (c := e) (by rcases he with rfl | rfl <;> decide) k hk

theorem escPaired.stuff1_append {bs : List Byte} (h : escPaired bs) (c : Byte) : escPaired (stuff1 c ++ bs) := by
  by_cases hend : c = slipEnd
  · rw [hend, stuff1_end]; exact h.pair (.inl rfl)
  by_cases hesc : c = slipEsc
  · rw [hesc, stuff1_esc]; exact h.pair (.inr rfl)
  · rw [stuff1_data hend hesc]; exact h.cons hesc

/-- The escapes of a stuffed sequence are whole, whatever well-paired bytes follow. -/
theorem escPaired.stuff_append {bs : List Byte} (h : escPaired bs) (S : List Byte) : escPaired (stuff S ++ bs) := by
  induction S with
  | nil => exact h
  | cons c S ih => rw [stuff_cons, List.append_assoc]; exact ih.stuff1_append c

theorem escPaired_nil : escPaired [] := nofun

theorem escPaired_frame (S : List Byte) : escPaired (stuff S ++ [slipEnd]) :=
  (escPaired_nil.cons (by decide)).stuff_append S

/-! ## Sending a frame (R197) -/

/-- A run of commands none of which can stop ends. -/
theorem execAll_ends {is : List Instr} (his : ∀ i ∈ is, ∀ s, ∃ t, exec i s = .next t) (s : State) :
    ∃ rs t, execAll is s = some (rs, t) := by
  induction is generalizing s with
  | nil => exact ⟨[], s, rfl⟩
  | cons i is ih =>
    obtain ⟨hi, hrest⟩ := List.forall_mem_cons.mp his
    obtain ⟨t, ht⟩ := hi s
    obtain ⟨rs, u, hu⟩ := ih hrest t
    exact ⟨_, u, execAll_cons ht hu⟩

/-- The commands of `SE.FRAME S` are appends, which stop nowhere. -/
theorem execAll_seFrame_ends (S : List Byte) (s : State) :
    ∃ rs t, execAll (S.map .sePush ++ [.seEnd]) s = some (rs, t) := by
  refine execAll_ends ?_ s
  simp only [List.forall_mem_append, List.forall_mem_map, List.forall_mem_singleton]
  exact ⟨fun c _ => seAppend_next (stuff1 c), seAppend_next [slipEnd]⟩

/-- An append that responds `OK` has fitted. -/
theorem seAppend_ok {bs : List Byte} {s t : State} (h : seAppend bs s = .next t) (hok : t.resp = [0x00]) :
    s.seLen.toNat + bs.length ≤ s.params.seCap.val ∧ t.seLen.toNat = s.seLen.toNat + bs.length ∧
      t.params = s.params := by
  rcases seAppend_cases h with ⟨_, rfl⟩ | ⟨hfit, rfl⟩
  · exact absurd hok.symm ok_ne_overflow
  · exact ⟨hfit, toNat_ofNat_of_le_cap hfit, rfl⟩

/-- A frame whose every command responds `OK` has fitted: each append leaves the room that the next one needs. -/
theorem seFrame_fits_of_ok {S : List Byte} {s t : State} {rs : List (List Byte)}
    (h : execAll (S.map .sePush ++ [.seEnd]) s = some (rs, t)) (hok : ∀ r ∈ rs, r = [0x00]) :
    s.seLen.toNat + (stuff S).length + 1 ≤ s.params.seCap.val := by
  induction S generalizing s rs with
  | nil =>
    obtain ⟨u, _, hend, _, rfl⟩ := execAll_cons_inv h
    exact (seAppend_ok hend (hok _ List.mem_cons_self)).left
  | cons c S ih =>
    obtain ⟨u, rs', hpush, hrest, rfl⟩ := execAll_cons_inv h
    obtain ⟨hhead, htail⟩ := List.forall_mem_cons.mp hok
    obtain ⟨_, hlen, hparams⟩ := seAppend_ok hpush hhead
    have hroom := ih hrest htail
    rw [hlen, hparams] at hroom
    rw [stuff_cons, List.length_append]
    omega

/-- Settles O42: a frame that fits is written with every response `OK`, and a run with every response `OK` has fitted;
the shape of what is written is that of a stuffed frame. -/
theorem frameTransmission : Obligations.FrameTransmission := by
  intro S s
  have hlen := stuff_length S
  have hcount := List.countP_le_length (p := fun c => c == slipEnd || c == slipEsc) (l := S)
  refine ⟨?_, hlen, by omega, fun _ => eq_length_of_getElem?_slipEnd, escPaired_frame S⟩
  by_cases hfit : s.seLen.toNat + (stuff S).length + 1 ≤ s.params.seCap.val
  · obtain ⟨t, ht, htlen, hheld⟩ := execAll_seFrame hfit
    rw [List.length_append, ← Nat.add_assoc] at htlen
    exact ⟨_, t, ht, ⟨fun _ => hfit, fun _ _ => List.eq_of_mem_replicate⟩, fun _ => ⟨hheld, htlen⟩⟩
  · obtain ⟨rs, t, ht⟩ := execAll_seFrame_ends S s
    exact ⟨rs, t, ht, ⟨seFrame_fits_of_ok ht, fun h => absurd h hfit⟩, fun h => absurd h hfit⟩

end Sys2Proof.Machine
end

section
/-! SUPPORT. The exceptions family (spec/60_exceptions.md R220): which status code each command responds. -/

namespace Sys2Proof.Machine

/-! ## The status of a response (R74, R220) -/

/-- The response of `t` begins with the code of a status that `P` allows. -/
def State.reportsIn (t : State) (P : Status → Prop) : Prop :=
  ∃ st data, t.resp = st.code :: data ∧ P st

section
variable {P : Status → Prop}

theorem respond_reportsIn {st : Status} {data : List Byte} {s t : State} (h : respond st data s = .next t)
    (hst : P st) : t.reportsIn P := by
  cases h; exact ⟨st, data, rfl, hst⟩

theorem osAppend_reportsIn {bs : List Byte} {s t : State} (h : osAppend bs s = .next t) (hok : P .ok)
    (hover : P .bufferOverflow) : t.reportsIn P := by
  rcases osAppend_cases h with ⟨_, rfl⟩ | ⟨_, rfl⟩
  · exact ⟨_, [], rfl, hover⟩
  · exact ⟨_, [], rfl, hok⟩

theorem seAppend_reportsIn {bs : List Byte} {s t : State} (h : seAppend bs s = .next t) (hok : P .ok)
    (hover : P .bufferOverflow) : t.reportsIn P := by
  rcases seAppend_cases h with ⟨_, rfl⟩ | ⟨_, rfl⟩
  · exact ⟨_, [], rfl, hover⟩
  · exact ⟨_, [], rfl, hok⟩

theorem sdAppend_reportsIn {v : Byte} {s t : State} (h : sdAppend v s = .next t) (hok : P .ok)
    (hover : P .bufferOverflow) : t.reportsIn P := by
  rcases sdAppend_cases h with ⟨_, rfl⟩ | ⟨_, rfl⟩
  · exact ⟨_, [], rfl, hover⟩
  · exact ⟨_, [], rfl, hok⟩

theorem SdAction.run_reportsIn {x : SdAction} {s t : State} (h : x.run s = .next t) (hok : P .ok)
    (hover : P .bufferOverflow) (hviolation : x = .reportViolation → P .protocolViolation) : t.reportsIn P := by
  cases x with
  | append v => exact sdAppend_reportsIn h hok hover
  | completeFrame | enterEscaped => exact respond_reportsIn h hok
  | reportViolation => exact respond_reportsIn h (hviolation rfl)

theorem readBack_reportsIn {m : Memory} {len idx : Half} {s t : State} (h : readBack m len idx s = .next t)
    (hok : P .ok) (hrange : len ≤ idx → P .indexOutOfRange) : t.reportsIn P := by
  rcases readBack_cases h with ⟨hle, rfl⟩ | ⟨_, v, _, rfl⟩
  · exact ⟨_, [0x00], rfl, hrange hle⟩
  · exact ⟨_, [v], rfl, hok⟩

end

/-! ## The cause of each status (R220) -/

/-- The row of a violation is that of a byte in `Escaped` that ends no escape (R158). -/
theorem sdAction_eq_reportViolation {esc : EscState} {c : Byte} (h : sdAction esc c = .reportViolation) :
    esc = .escaped ∧ c ≠ slipEscEnd ∧ c ≠ slipEscEsc := by
  unfold sdAction at h
  split at h <;> split at h
  · cases h
  · split at h <;> cases h
  · cases h
  · split at h
    · cases h
    · exact ⟨rfl, ‹_›, ‹_›⟩

/-- The column "raised by" of R220 for `BufferOverflow`: the appends. -/
def canOverflow (i : Instr) : Prop :=
  (∃ a u, i = .osBegin a u) ∨ (∃ w, i = .osI32 w) ∨ (∃ w, i = .osF32 w) ∨ (∃ d, i = .osStr d) ∨
    (∃ d, i = .osBlob d) ∨ (∃ b, i = .sdPush b) ∨ (∃ b, i = .sePush b) ∨ i = .seEnd

/-- The table of R220: what a command and the state it runs in must be for the command to respond a status. -/
def statusCause (i : Instr) (s : State) : Status → Prop
  | .ok => True
  | .bufferOverflow => canOverflow i
  | .protocolViolation => ∃ b, i = .sdPush b ∧ s.sdEsc = .escaped ∧ b ≠ slipEscEnd ∧ b ≠ slipEscEsc
  | .illegalCommand => False
  | .indexOutOfRange =>
    ∃ idx, (i = .osRead idx ∧ s.osCur ≤ idx) ∨ (i = .sdRead idx ∧ s.sdLen ≤ idx) ∨ (i = .seRead idx ∧ s.seLen ≤ idx)

/-- An executed command reports a status whose cause is there. -/
theorem exec_reportsIn_statusCause {i : Instr} {s t : State} (h : exec i s = .next t) :
    t.reportsIn (statusCause i s) := by
  cases i with
  | osBegin _ _ | osI32 _ | osF32 _ | osStr _ | osBlob _ =>
    exact osAppend_reportsIn h trivial (by simp [statusCause, canOverflow])
  | sePush _ | seEnd => exact seAppend_reportsIn h trivial (by simp [statusCause, canOverflow])
  | sdPush c =>
    rw [exec, execSdPush_eq_action] at h
    exact SdAction.run_reportsIn h trivial (by simp [statusCause, canOverflow])
      fun hx => ⟨c, rfl, sdAction_eq_reportViolation hx⟩
  | osRead idx => exact readBack_reportsIn h trivial fun hle => ⟨idx, .inl ⟨rfl, hle⟩⟩
  | sdRead idx => exact readBack_reportsIn h trivial fun hle => ⟨idx, .inr (.inl ⟨rfl, hle⟩)⟩
  | seRead idx => exact readBack_reportsIn h trivial fun hle => ⟨idx, .inr (.inr ⟨rfl, hle⟩)⟩
  | osStatus | sdStatus | seStatus | sdClear | seClear => exact respond_reportsIn h trivial

theorem Status.code_injective {st st' : Status} (h : st.code = st'.code) : st = st' := by
  cases st <;> cases st' <;> simp [Status.code] at h ⊢

/-- Settles O14: a command reports a status with its cause, and the code tells which status that is. -/
theorem statusCodesByCommand : Obligations.StatusCodesByCommand := by
  intro i s t h
  obtain ⟨st, data, hresp, hcause⟩ := exec_reportsIn_statusCause h
  have cause_of_code {st' : Status} (hcode : st.code = st'.code) : statusCause i s st' :=
    Status.code_injective hcode ▸ hcause
  refine ⟨st.code, data, hresp, ?_, cause_of_code (st' := .bufferOverflow),
    cause_of_code (st' := .protocolViolation), cause_of_code (st' := .indexOutOfRange)⟩
  cases st with
  | ok => exact .inl rfl
  | bufferOverflow => exact .inr (.inl rfl)
  | protocolViolation => exact .inr (.inr (.inl rfl))
  | illegalCommand => exact hcause.elim
  | indexOutOfRange => exact .inr (.inr (.inr rfl))

end Sys2Proof.Machine
end

section
/-! SUPPORT. The reset and hazards family (spec/70_reset_and_hazards.md R250, R251, R263): a packet that waits for a
response, the state right after reset, and what the reset input holds back. -/

namespace Sys2Proof.Machine

/-! ## A packet that waits for a response (R263, R74) -/

theorem runSteps_of_step {s t : State} (h : step s = .next t) (n : Nat) : runSteps (n + 1) s = runSteps n t := by
  rw [runSteps, h]

/-- The host has done `acts`, which took the whole response, and has `later` still to do. -/
def State.responseTaken (s : State) (acts later : List HostAct) : State :=
  { s with port := s.port ++ sentBytes acts, resp := [], host := later, out := s.out ++ s.resp }

theorem State.responseTaken_nil {s : State} (hresp : s.resp = []) : s.responseTaken [] s.host = s := by
  simp only [responseTaken, sentBytes, List.filterMap_nil, List.append_nil, hresp]
  rw [← hresp]

theorem State.responseTaken_send (s : State) (c : Byte) (acts host later : List HostAct) :
    { s with host := host, port := s.port ++ [c] }.responseTaken acts later =
      s.responseTaken (.send c :: acts) later := by
  simp [responseTaken, sentBytes]

theorem State.responseTaken_take {s : State} {r : Byte} {rs : List Byte} (hresp : s.resp = r :: rs)
    (acts host later : List HostAct) :
    { s with host := host, resp := rs, out := s.out ++ [r] }.responseTaken acts later =
      s.responseTaken (.take :: acts) later := by
  simp [responseTaken, sentBytes, hresp]

/-- While response bytes wait, the packet's last byte stays on the port (R74), so each step is the next act of the host:
a byte sent comes last on the port, a take sends the next response byte out. -/
theorem runSteps_responseTaken {b : Byte} {acts later : List HostAct} {s : State} {rest : List Byte}
    (hpacket : isPacket (s.cmdBuf ++ [b])) (harr : s.arrives b rest) (hhost : s.host = acts ++ later)
    (hlevel : ∀ level, HostAct.resetLine level ∉ acts) (htakes : acts.count .take = s.resp.length)
    (hlast : acts = [] ∨ acts.getLast? = some .take) :
    runSteps acts.length s = .next (s.responseTaken acts later) := by
  obtain ⟨hport, hreset⟩ := harr
  induction acts generalizing s rest with
  | nil =>
    rw [← show s.host = later from hhost, State.responseTaken_nil (List.eq_nil_of_length_eq_zero htakes.symm)]
    rfl
  | cons act acts ih =>
    replace hlast := hlast.resolve_left (List.cons_ne_nil act acts)
    have hresp : s.resp ≠ [] := by
      have hpos := List.count_pos_iff.mpr (List.mem_of_getLast? hlast)
      exact List.ne_nil_of_length_pos (htakes ▸ hpos)
    have hlast' : acts = [] ∨ acts.getLast? = some .take := by
      cases acts with
      | nil => exact .inl rfl
      | cons => exact .inr (List.getLast?_cons_cons ▸ hlast)
    have hlevel' : ∀ level, HostAct.resetLine level ∉ acts := fun level h => hlevel level (.tail _ h)
    have hwait : s.portWaits := .inr (.inr ⟨b, rest, hport, hresp, hpacket⟩)
    cases act with
    | send c =>
      rw [List.length_cons, runSteps_of_step (sentByteQueuesOnPort s c _ hwait hhost), ← s.responseTaken_send]
      exact ih hpacket rfl hlevel' (by simpa using htakes) hlast' (congrArg (· ++ [c]) hport) hreset
    | take =>
      obtain ⟨r, rs, hr⟩ := List.exists_cons_of_ne_nil hresp
      rw [List.length_cons, runSteps_of_step (responseBytesGoOutInOrder s r rs _ hwait hhost hreset hr),
        ← State.responseTaken_take hr]
      exact ih hpacket rfl hlevel' (by simpa [hr] using htakes) hlast' hport hreset
    | resetLine level => exact absurd List.mem_cons_self (hlevel level)

/-- Once the response has gone out the packet's last byte arrives, with the bytes sent meanwhile behind it. -/
theorem State.responseTaken_arrives {s : State} {b : Byte} {rest : List Byte} (h : s.arrives b rest)
    (acts later : List HostAct) : (s.responseTaken acts later).arrives b (rest ++ sentBytes acts) :=
  ⟨congrArg (· ++ sentBytes acts) h.1, h.2⟩

/-- Settles O56: the host's acts take the response, and the step after them takes the byte that waits. -/
theorem pendingCommandExecutesOnceResponseIsTaken : Obligations.PendingCommandExecutesOnceResponseIsTaken := by
  intro s b rest acts later harr hhost hlevel htakes hlast
  have hnext (hpacket : isPacket (s.cmdBuf ++ [b])) :
      runSteps (acts.length + 1) s = step (s.responseTaken acts later) :=
    runSteps_succ (runSteps_responseTaken hpacket harr hhost hlevel htakes hlast)
  have harr' := State.responseTaken_arrives harr acts later
  exact ⟨fun i hi => (hnext (.inl ⟨i, hi⟩)).trans (stepRunsDecodedCommand _ _ _ i harr' rfl hi),
    fun why hw => (hnext (.inr ⟨why, hw⟩)).trans (step_illegal harr' rfl hw)⟩

/-! ## Reset (R250, R251) -/

/-- Settles O44: the registers are those of `State.resetFor`, for which the invariant is proved at `inv_resetFor`. -/
theorem invHoldsAtReset : Obligations.InvHoldsAtReset :=
  ⟨fun p => ⟨rfl, rfl, rfl, rfl, rfl, rfl, rfl, rfl, rfl, State.inv_resetFor p⟩, Config.resetParams, rfl⟩

/-- R250: under reset an act of the host that does not release it can only put a byte on the command port. -/
theorem hostStep_under_reset {act : HostAct} {s t : State} (hreset : s.resetAsserted = true)
    (h : hostStep act s = .next t) (ht : t.resetAsserted = true) :
    ∃ port, t = { s with port := port } ∧ s.port <+: port := by
  cases act with
  | send b => cases h; exact ⟨_, rfl, List.prefix_append s.port [b]⟩
  | take =>
    cases (takeByte_empty (.inl hreset)).symm.trans h
    exact ⟨_, rfl, List.prefix_rfl⟩
  | resetLine level =>
    cases level with
    | true => cases h; exact ⟨s.port, by rw [← hreset], List.prefix_rfl⟩
    | false =>
      cases (driveReset_releases hreset).symm.trans h
      cases ht

/-- Settles O54: under reset it is the host's turn in every step; a release gives the registers of `State.resetFor`. -/
theorem resetInputRestoresReset : Obligations.ResetInputRestoresReset := by
  refine ⟨fun s later hwait hhost => step_hostAct hwait hhost, fun s later hreset hhost => ?_,
    fun s later hwait hreset hhost => (step_hostAct hwait hhost).trans (driveReset_idle hreset),
    fun s later hreset hhost => (step_hostAct (.inl hreset) hhost).trans (takeByte_empty (.inl hreset)),
    fun s t hreset hstep ht => ?_⟩
  · exact ⟨_, (step_hostAct (.inl hreset) hhost).trans (driveReset_releases hreset),
      rfl, rfl, rfl, rfl, rfl, rfl, rfl, rfl, rfl, rfl, rfl, rfl⟩
  · cases hhost : s.host with
    | nil => rw [step_hostTurn (.inl hreset), hostTurn_silent hhost] at hstep; cases hstep
    | cons act later =>
      rw [step_hostAct (.inl hreset) hhost] at hstep
      obtain ⟨port, rfl, hport⟩ := hostStep_under_reset (s := { s with host := later }) hreset hstep ht
      exact ⟨⟨rfl, rfl⟩, ⟨rfl, rfl, rfl, rfl⟩, ⟨rfl, rfl⟩, rfl, rfl, rfl, hport⟩

end Sys2Proof.Machine
end
